-- ==== Sys2Proof/Word.lean ====
section
/-! DEFINITION. The spec's values (00_scope.md R8): u8, u16, u32. R7 gives each one width, so the widths are written
out; Laws/Config.lean shows them equal to the parameters in Config.lean. -/

namespace Sys2Proof

/-- A u8: a register pointer byte, a bus byte, a bus status. -/
abbrev Byte := BitVec 8

/-- A u16: a sensor register value, the DATA field. -/
abbrev Half := BitVec 16

/-- A u32: the command word CMD, or the float operand FOP, the bits of a binary32 value. -/
abbrev Word := BitVec 32

end Sys2Proof
end

