-- ==== Sys2Proof/Config.lean ====
section
/-! DEFINITION. The implementation parameters of 00_scope.md R7, the register map of 20_memory.md R41, and
the one free value: what the bus agent answers (20_memory.md R50). -/

namespace Sys2Proof

/-- ENC_ROUNDING, an OPEN parameter (R7, 92_eei_decisions.md D6): how Round4 is evaluated (R126). -/
inductive EncRounding where
  /-- EXACT_HALF_UP, the default: exact `floor(4m + 1/2)`. -/
  | exactHalfUp
  /-- F32_ADD_FLOOR: a binary32 product, a binary32 sum, then floor. -/
  | f32AddFloor
deriving DecidableEq, Repr

/-- STATUS_BEFORE_READ, an OPEN parameter (R7, 92_eei_decisions.md D8): GETSTATUS before the first ambient
decode (R142). -/
inductive StatusBeforeRead where
  /-- FAULT, the default: GETSTATUS faults StatusUnset. -/
  | fault
  /-- ZERO: GETSTATUS gives u8(0). -/
  | zero
deriving DecidableEq, Repr

/-- The OPEN parameters of R7, fixed for one block. State carries the record and no step changes it (log 7). -/
structure Config where
  encRounding      : EncRounding
  statusBeforeRead : StatusBeforeRead
deriving DecidableEq, Repr

/-- The defaults R7 states. -/
def Config.defaults : Config := { encRounding := .exactHalfUp, statusBeforeRead := .fault }

/-- REG_ADDR_WIDTH: the register pointer is one byte (R7). -/
def Config.regAddrWidth : Nat := 8

/-- CMD_WIDTH (R7, 30_encoding.md R60). -/
def Config.cmdWidth : Nat := 32

/-- FOP_WIDTH (R7, R60). -/
def Config.fopWidth : Nat := 32

/-- DATA_WIDTH (R7, R61). -/
def Config.dataWidth : Nat := 16

/-- A float format of 00_scope.md R8: one sign bit above the exponent and fraction fields. -/
structure FloatFormat where
  expBits  : Nat
  bias     : Nat
  fracBits : Nat
deriving DecidableEq, Repr

/-- FLOAT_FORMAT: IEEE 754 binary32 (R7, R8, 92_eei_decisions.md D5). -/
def Config.floatFormat : FloatFormat := { expBits := 8, bias := 127, fracBits := 23 }

/-- REG_MAX: the highest valid register address (R7). -/
def Config.regMax : Byte := 0x08

/-- REG_COUNT: the valid register addresses are 0x00 to 0x08 (R7). -/
def Config.regCount : Nat := 9

/-- DEV_ADDR_MIN (R7). -/
def Config.devAddrMin : Nat := 24

/-- DEV_ADDR_MAX (R7). -/
def Config.devAddrMax : Nat := 31

/-- DEVICES_PER_BUS (R7). -/
def Config.devicesPerBus : Nat := 8

/-- RES_LIMIT: resolution values below it are accepted (R7, R144). -/
def Config.resLimit : Byte := 4

/-- SIGN_BIT of the temperature format (R7, R67). -/
def Config.signBit : Half := 0x1000

/-- MAG_MASK: the low field of the temperature format (R7, R67). -/
def Config.magMask : Half := 0x0FFF

/-- STATUS_MASK (R7, R122). -/
def Config.statusMask : Half := 0xE000

/-- STATUS_SHIFT (R7, R122). -/
def Config.statusShift : Nat := 13

/-- ENC_PRE_SCALE (R7, R125 step 2). -/
def Config.encPreScale : Nat := 4

/-- ENC_POST_SCALE (R7, R125 step 2). -/
def Config.encPostScale : Nat := 4

/-- TEMP_LSB = 2^-4 °C (R7), in units of 2^-149 °C. -/
def Config.tempLsb : Nat := 2 ^ 145

/-- TEMP_NEG_BIAS = 256.0 °C (R7), in units of 2^-149 °C. -/
def Config.tempNegBias : Nat := 256 * 2 ^ 149

/-- The register map of 20_memory.md R41. -/
def Config.regRfu : Byte := 0x00
/-- CONFIG (R41). -/
def Config.regConfig : Byte := 0x01
/-- T_UPPER (R41). -/
def Config.regUpper : Byte := 0x02
/-- T_LOWER (R41). -/
def Config.regLower : Byte := 0x03
/-- T_CRIT (R41). -/
def Config.regCrit : Byte := 0x04
/-- T_AMBIENT (R41). -/
def Config.regAmbient : Byte := 0x05
/-- MANUFACTURER_ID (R41). -/
def Config.regManufacturer : Byte := 0x06
/-- DEVICE_ID (R41). -/
def Config.regDevice : Byte := 0x07
/-- RESOLUTION (R41). -/
def Config.regResolution : Byte := 0x08

/-- FREE VALUE (log 2). The bus agent's answer number `n`, once State's scripted answers are used up: a status
for a BusEnd, a byte for a BusRead, or `none` where the agent never answers. 20_memory.md R50 leaves every
answer free and 70_reset_and_hazards.md R247 lets an agent never answer; nothing constrains this function. -/
opaque Config.busAnswer : Nat → Option Byte

end Sys2Proof
end

