-- ==== Sys2Proof/Syntax.lean ====
section
/-! DEFINITION. The commands of 30_encoding.md R62, one constructor per row of spec/opcode_table.json, and the
pair of words the host presents (R60). -/

namespace Sys2Proof

/-- What the host presents on the command port: CMD and FOP together (R60). -/
structure Command where
  cmd : Word
  fop : Word
deriving DecidableEq, Repr

/-- A decoded command with the operands R62 and R66 give it. -/
inductive Instr where
  /-- BIND addr (R140). -/
  | bind (addr : Half)
  /-- PROBE (R141). -/
  | probe
  /-- RD8 reg (R101). -/
  | rd8 (reg : Byte)
  /-- RD16 reg (R102). -/
  | rd16 (reg : Byte)
  /-- WR8 reg, v (R103). -/
  | wr8 (reg : Byte) (v : Byte)
  /-- WR16 reg, v (R104). -/
  | wr16 (reg : Byte) (v : Half)
  /-- DECODE reg, raw (R123). -/
  | decode (reg : Byte) (raw : Half)
  /-- ENCODE c, the bits of a binary32 value (R127). -/
  | encode (c : Word)
  /-- RDTEMP reg (R124). -/
  | rdtemp (reg : Byte)
  /-- WRTEMP reg, c (R128). -/
  | wrtemp (reg : Byte) (c : Word)
  /-- GETSTATUS (R142). -/
  | getstatus
  /-- SETRES v (R143). -/
  | setres (v : Byte)
deriving DecidableEq, Repr

end Sys2Proof
end

