-- ==== Sys2Proof/Machine/State.lean ====
section
/-! DEFINITION. The block's state (10_state.md R20), the outputs and the observation the spec names beside it
(R27, R28, 00_scope.md R10), the two agents outside it as plain data (00_scope.md R6), and the ways a run stops. -/

namespace Sys2Proof.Machine

/-- The tagged result output (10_state.md R27). -/
inductive Result where
  | none
  | bool (b : Bool)
  | u8 (v : Byte)
  | u16 (v : Half)
  | f32 (bits : Word)
deriving DecidableEq, Repr

/-- What a completed command drives: `result` (R27) and `GUARD` (R28). -/
structure Output where
  result : Result
  guard  : Bool
deriving DecidableEq, Repr

/-- The events of the bus history (20_memory.md R46). -/
inductive BusEvent where
  /-- `Begin(a)` of `BusBegin(a)`. -/
  | beginAt (a : BitVec 7)
  /-- `Write(b)` of `BusWrite(b)`. -/
  | write (b : Byte)
  /-- `End(s)` of `s <- BusEnd()`. -/
  | ended (s : Byte)
  /-- `Request(a, n)` of `BusRequest(a, n)`. -/
  | request (a : BitVec 7) (n : Nat)
  /-- `Read(b)` of `b <- BusRead()`. -/
  | read (b : Byte)
  /-- `Init` of `BusInit()`. -/
  | init
deriving DecidableEq, Repr

/-- What the host may do between commands (60_exceptions.md R211). Reading `result`, `GUARD` and `FAULT` is no
input: it changes nothing (R211) and is Sys2Proof.hostView in Safety.lean. -/
inductive HostInput where
  /-- Present a command on the command port (30_encoding.md R60). -/
  | command (w : Command)
  /-- Assert the reset input (70_reset_and_hazards.md R240). -/
  | reset
deriving DecidableEq, Repr

/-- The block's faults (60_exceptions.md R201). These are values of the FAULT register, not stops of the model. -/
inductive FaultCode where
  | illegalCommand
  | notBound
  | encodeNonFinite
  | encodeRange
  | statusUnset
deriving DecidableEq, Repr

/-- The machine. The first five fields are the block's registers, all there are (10_state.md R20). -/
structure State where
  /-- BOUND (R22). -/
  bound       : Bool
  /-- DEVADDR (R21). -/
  devAddr     : Byte
  /-- STATUS (R23). -/
  status      : BitVec 3
  /-- STATUS_VALID (R24). -/
  statusValid : Bool
  /-- FAULT (R25). -/
  fault       : BitVec 3
  /-- The outputs of the last command the block executed; none after one that faulted (R27, R28, R202). -/
  port        : Option Output
  /-- The outputs of every command completed since reset, oldest first (00_scope.md R10). -/
  results     : List Output
  /-- The bus history since reset, oldest first (R10). -/
  busHistory  : List BusEvent
  /-- What the host does next, oldest first (log 1). -/
  inputs      : List HostInput
  /-- The bus agent's next answers, oldest first; `none` is an answer that never comes (log 2). -/
  busScript   : List (Option Byte)
  /-- The answers drawn so far: the counter of the free value Config.busAnswer (log 2). -/
  busDraws    : Nat
  /-- The OPEN parameters of this block (00_scope.md R7). -/
  params      : Config
deriving DecidableEq, Repr

/-- Why a run stops. Both are stops the spec itself names; neither is a value of the FAULT register. -/
inductive Fault where
  /-- Raised by step: a command is presented while FAULT is not 0; it has no step and the block is stuck
  (60_exceptions.md R203). Safe: the run stops where the block executes nothing either. -/
  | halted
  /-- Raised by every command that uses the bus: a BusEnd or BusRead is never answered, and the block stays inside
  its command for ever (70_reset_and_hazards.md R247). Safe: the run stops where the block never completes. -/
  | busNeverAnswers
deriving DecidableEq, Repr

/-- Why a step is refused. No instruction of this model is refused. -/
inductive Refusal where
  /-- Raised by an arm of exec whose instruction has no meaning; there is none. Safe. -/
  | notModelled (mnemonic : String)
deriving DecidableEq, Repr

/-- What a meaning answers. -/
abbrev Out := Host.Outcome State Fault Refusal

/-- The state after reset (R20, 70_reset_and_hazards.md R241). DEVADDR and STATUS have no value in the spec; the
zeros are this model's (DESIGN CHOICE, log 5 and 6, unsafe). -/
def State.reset : State :=
  { bound := false, devAddr := 0x00, status := 0, statusValid := false, fault := 0,
    port := none, results := [], busHistory := [],
    inputs := [], busScript := [], busDraws := 0, params := Config.defaults }

end Sys2Proof.Machine
end

