-- ==== Sys2Proof/Machine/Flags.lean ====
section
/-! DEFINITION. The two guards behind the block's only flag, GUARD (10_state.md R28). GUARD is 1 exactly when one
of them rejects the command. -/

namespace Sys2Proof.Machine

/-- The register-address guard (40_register_access.md R100). -/
def guarded (reg : Byte) : Bool := Config.regMax < reg

/-- The resolution-value guard (42_control.md R144). -/
def resGuarded (v : Byte) : Bool := Config.resLimit ≤ v

end Sys2Proof.Machine
end

