-- ==== Sys2Proof/Machine/Operands.lean ====
section
/-! DEFINITION. Operand forms beyond the fields of CMD: byte order (20_memory.md R43 to R45), the bus address
(R46), the BIND range (42_control.md R140), the status byte (30_encoding.md R68). -/

namespace Sys2Proof.Machine

/-- `v[15:8]`, the byte a 16-bit write sends first (R45). -/
def highByte (v : Half) : Byte := v.extractLsb' 8 8

/-- `v[7:0]` (R45). -/
def lowByte (v : Half) : Byte := v.extractLsb' 0 8

/-- `b0 ++ b1`: the first byte received is the high one (R44). -/
def unpack16 (b0 b1 : Byte) : Half := b0 ++ b1

/-- `DEVADDR[6:0]`, the address every bus primitive carries (R46, 10_state.md R21). -/
def State.busAddr (s : State) : BitVec 7 := s.devAddr.extractLsb' 0 7

/-- The addresses BIND accepts; the whole 16-bit operand is compared (R140, R66). -/
def bindable (a : Half) : Bool := Config.devAddrMin ≤ a.toNat && a.toNat ≤ Config.devAddrMax

/-- `zext_8(STATUS)` (R68). -/
def statusByte (st : BitVec 3) : Byte := st.zeroExtend 8

/-- The code FAULT holds (60_exceptions.md R201). -/
def FaultCode.code : FaultCode → BitVec 3
  | .illegalCommand  => 1
  | .notBound        => 2
  | .encodeNonFinite => 3
  | .encodeRange     => 4
  | .statusUnset     => 5

end Sys2Proof.Machine
end

