-- ==== Sys2Proof/Machine/Ops.lean ====
section
/-! DEFINITION. The shared operations: completing a command, faulting, reset, the bus primitives (20_memory.md R46)
and the bus sequences (R47 to R49). A primitive that takes an answer of the bus agent hands it to what follows, as
the spec's pseudocode does. -/

namespace Sys2Proof.Machine

/-! ### How a command ends -/

/-- Drive `result` and `GUARD`; the host reads them (10_state.md R27, R28, 00_scope.md R10). -/
def complete (r : Result) (g : Bool) (s : State) : Out :=
  .next { s with port := some ⟨r, g⟩, results := s.results ++ [⟨r, g⟩] }

/-- `raise Fault(code)` (60_exceptions.md R202): FAULT is written, no other register; no result and no GUARD. The
spec has no trap and no return from one (R206, R207): only reset leaves the halt of R203. -/
def raiseFault (c : FaultCode) (s : State) : Out :=
  .next { s with fault := c.code, port := none }

/-- `if BOUND = 0: raise Fault(NotBound)` (10_state.md R22). -/
def whenBound (s : State) (k : Out) : Out :=
  if s.bound then k else raiseFault .notBound s

/-- The reset input (70_reset_and_hazards.md R240 to R242): the registers at their reset values, an empty
observation, no bus event. What is outside the block stays: the host's further inputs, the bus agent, the parameters (log 9). -/
def applyReset (s : State) : State :=
  { State.reset with
    inputs := s.inputs, busScript := s.busScript, busDraws := s.busDraws, params := s.params }

/-! ### The bus agent -/

/-- The bus agent's `k`-th answer from now (20_memory.md R50): a scripted one, or else the free value. -/
def State.answer (s : State) (k : Nat) : Option Byte :=
  match s.busScript[k]? with
  | some a => a
  | none   => Config.busAnswer (s.busDraws + k)

/-- One answer is used up. -/
def State.drawn (s : State) : State :=
  { s with busScript := s.busScript.drop 1, busDraws := s.busDraws + 1 }

/-- Every primitive is recorded in the bus history (00_scope.md R10). -/
def State.record (s : State) (e : BusEvent) : State :=
  { s with busHistory := s.busHistory ++ [e] }

/-- Go on with an answer. If none ever comes, the command never completes (70_reset_and_hazards.md R247). -/
def whenAnswered (a : Option Byte) (k : Byte → Out) : Out :=
  match a with
  | some b => k b
  | none   => .fault .busNeverAnswers

/-- Take the bus agent's next answer. -/
def awaitAnswer (s : State) (k : Byte → State → Out) : Out :=
  whenAnswered (s.answer 0) fun b => k b s.drawn

/-! ### The primitives of R46 -/

/-- `BusBegin(DEVADDR[6:0])`. -/
def busBegin (s : State) : State := s.record (.beginAt s.busAddr)

/-- `BusWrite(b)`. -/
def busWrite (b : Byte) (s : State) : State := s.record (.write b)

/-- `st <- BusEnd()`. -/
def busEnd (s : State) (k : Byte → State → Out) : Out :=
  awaitAnswer s fun st s => k st (s.record (.ended st))

/-- `BusRequest(DEVADDR[6:0], n)`. -/
def busRequest (n : Nat) (s : State) : State := s.record (.request s.busAddr n)

/-- `b <- BusRead()`. -/
def busRead (s : State) (k : Byte → State → Out) : Out :=
  awaitAnswer s fun b s => k b (s.record (.read b))

/-- `BusInit()`: one opaque event, nothing is answered. -/
def busInit (s : State) : State := s.record .init

/-! ### The bus sequences -/

/-- R47 with n = 1. The end status is not examined. -/
def readReg8 (reg : Byte) (s : State) (k : Byte → State → Out) : Out :=
  busEnd (busWrite reg (busBegin s)) fun _ s =>
    busRead (busRequest 1 s) k

/-- R47 with n = 2, assembled high byte first (R44). -/
def readReg16 (reg : Byte) (s : State) (k : Half → State → Out) : Out :=
  busEnd (busWrite reg (busBegin s)) fun _ s =>
    busRead (busRequest 2 s) fun b0 s =>
      busRead s fun b1 s => k (unpack16 b0 b1) s

/-- R48 with n = 1. The end status is not examined. -/
def writeReg8 (reg v : Byte) (s : State) (k : State → Out) : Out :=
  busEnd (busWrite v (busWrite reg (busBegin s))) fun _ s => k s

/-- R48 with n = 2, high byte first (R45). -/
def writeReg16 (reg : Byte) (v : Half) (s : State) (k : State → Out) : Out :=
  busEnd (busWrite (lowByte v) (busWrite (highByte v) (busWrite reg (busBegin s)))) fun _ s => k s

/-- The connection probe of R49. -/
def probeBus (s : State) (k : Byte → State → Out) : Out :=
  busEnd (busBegin s) k

/-! ### Writing the block's registers -/

/-- BIND's latch (42_control.md R140): `DEVADDR <- a[7:0]; BOUND <- 1`. -/
def State.latchAddress (s : State) (a : Half) : State :=
  { s with devAddr := lowByte a, bound := true }

/-- `STATUS <- st; STATUS_VALID <- 1` (10_state.md R23, R24). -/
def State.captureStatus (s : State) (st : BitVec 3) : State :=
  { s with status := st, statusValid := true }

end Sys2Proof.Machine
end

