-- ==== Sys2Proof/Machine/Control.lean ====
section
/-! DEFINITION. BIND, PROBE, GETSTATUS, SETRES (42_control.md). -/

namespace Sys2Proof.Machine

/-- BIND (R140). -/
def execBind (addr : Half) (s : State) : Out :=
  if bindable addr then complete (.bool true) false (busInit (s.latchAddress addr))
  else complete (.bool false) false s

/-- PROBE (R141): true exactly when the bus acknowledges, status 0. -/
def execProbe (s : State) : Out :=
  whenBound s (probeBus s fun st s => complete (.bool (st == 0)) false s)

/-- GETSTATUS (R142). -/
def execGetstatus (s : State) : Out :=
  if s.statusValid then complete (.u8 (statusByte s.status)) false s
  else
    match s.params.statusBeforeRead with
    | .fault => raiseFault .statusUnset s
    | .zero  => complete (.u8 0) false s

/-- SETRES (R143): the value guard comes before the bound check; the bus part is WR8 0x08, v. -/
def execSetres (v : Byte) (s : State) : Out :=
  if resGuarded v then complete .none true s
  else whenBound s (writeReg8 Config.regResolution v s fun s => complete .none false s)

end Sys2Proof.Machine
end

