-- ==== Sys2Proof/Machine/RegAccess.lean ====
section
/-! DEFINITION. RD8, RD16, WR8, WR16 (40_register_access.md). The register-address guard comes first, then the
bound check (60_exceptions.md R204). -/

namespace Sys2Proof.Machine

/-- RD8 (R101). -/
def execRd8 (reg : Byte) (s : State) : Out :=
  if guarded reg then complete (.u8 0) true s
  else whenBound s (readReg8 reg s fun b0 s => complete (.u8 b0) false s)

/-- RD16 (R102). -/
def execRd16 (reg : Byte) (s : State) : Out :=
  if guarded reg then complete (.u16 0) true s
  else whenBound s (readReg16 reg s fun v s => complete (.u16 v) false s)

/-- WR8 (R103). -/
def execWr8 (reg v : Byte) (s : State) : Out :=
  if guarded reg then complete .none true s
  else whenBound s (writeReg8 reg v s fun s => complete .none false s)

/-- WR16 (R104). -/
def execWr16 (reg : Byte) (v : Half) (s : State) : Out :=
  if guarded reg then complete .none true s
  else whenBound s (writeReg16 reg v s fun s => complete .none false s)

end Sys2Proof.Machine
end

