-- ==== Sys2Proof/Machine/Float.lean ====
section
/-! DEFINITION. IEEE 754 binary32 as the spec uses it (00_scope.md R8, 93_implementation_defined.md G2). Every finite
binary32 value is a whole number of units of 2^-149, so values are computed exactly, as integers in that unit. -/

namespace Sys2Proof.Machine

/-- The sign bit. -/
def f32Sign (c : Word) : Bool := c.msb

/-- The exponent field, 8 bits, bias 127. -/
def f32Exp (c : Word) : Nat := (c.extractLsb' 23 8).toNat

/-- The fraction field, 23 bits. -/
def f32Frac (c : Word) : Nat := (c.extractLsb' 0 23).toNat

/-- Neither a NaN nor an infinity. -/
def f32Finite (c : Word) : Bool := f32Exp c != 255

/-- The magnitude of a finite value, in units of 2^-149: subnormal, or with the hidden bit. -/
def f32Mag (c : Word) : Nat :=
  if f32Exp c = 0 then f32Frac c else (2 ^ 23 + f32Frac c) * 2 ^ (f32Exp c - 1)

/-- The value of a finite binary32 pattern, in units of 2^-149; none for a NaN or an infinity. -/
def f32Value (c : Word) : Option Int :=
  if f32Finite c then some (if f32Sign c then -(f32Mag c : Int) else (f32Mag c : Int)) else none

/-- `c < 0` for a finite `c`; `-0.0 < 0` is false (R8, 92_eei_decisions.md D28). -/
def f32Negative (c : Word) : Bool := f32Sign c && f32Mag c != 0

/-- The value 1.0 in units of 2^-149. -/
def f32One : Nat := 2 ^ 149

/-- The value 0.5 in units of 2^-149. -/
def f32Half : Nat := 2 ^ 148

/-- 2^128 in units of 2^-149: a rounded magnitude this large is +infinity. -/
def f32Overflow : Nat := 2 ^ 128 * 2 ^ 149

/-- Round a magnitude to 24 significant bits, to nearest, ties to even (R8). -/
def roundSignificand (n : Nat) : Nat :=
  let sh := n.log2 - 23
  let q := n / 2 ^ sh
  let r := n % 2 ^ sh
  if 2 ^ sh < 2 * r ∨ (2 ^ sh = 2 * r ∧ q % 2 = 1) then (q + 1) * 2 ^ sh else q * 2 ^ sh

/-- `rnd32` of a magnitude (41_temperature_codec.md R126): the nearest binary32 value; none is +infinity. -/
def rnd32 (n : Nat) : Option Nat :=
  if roundSignificand n < f32Overflow then some (roundSignificand n) else none

/-- Sign, exponent and fraction put together. -/
def f32Bits (neg : Bool) (e : BitVec 8) (f : BitVec 23) : Word :=
  (BitVec.ofBool neg).zeroExtend 32 <<< 31 ||| e.zeroExtend 32 <<< 23 ||| f.zeroExtend 32

/-- `bits32` of a magnitude that binary32 represents exactly (R8), with its sign. -/
def f32OfMag (neg : Bool) (n : Nat) : Word :=
  if n < 2 ^ 23 then f32Bits neg 0 (BitVec.ofNat 23 n)
  else f32Bits neg (BitVec.ofNat 8 (n.log2 - 23 + 1)) (BitVec.ofNat 23 (n / 2 ^ (n.log2 - 23)))

/-- `bits32(f32(t))` for a value that binary32 represents exactly (R8); zero is +0.0. -/
def f32OfValue (t : Int) : Word := f32OfMag (decide (t < 0)) t.natAbs

end Sys2Proof.Machine
end

