-- ==== Sys2Proof/Machine/Codec.lean ====
section
/-! DEFINITION. The fixed-point temperature codec of 41_temperature_codec.md sections 1 and 2. -/

namespace Sys2Proof.Machine

/-- The exact value `t` of R120, in units of 2^-149 °C: `k * 0.0625`, less 256.0 where the negative flag is set. -/
def tempValue (raw : Half) : Int :=
  let k : Int := (raw &&& Config.magMask).toNat
  if raw &&& Config.signBit ≠ 0 then k * (Config.tempLsb : Int) - (Config.tempNegBias : Int)
  else k * (Config.tempLsb : Int)

/-- TempDecode (R120). -/
def tempDecode (raw : Half) : Word := f32OfValue (tempValue raw)

/-- StatusOf (R122). -/
def statusOf (raw : Half) : BitVec 3 :=
  ((raw &&& Config.statusMask) >>> Config.statusShift).setWidth 3

/-- `rnd32(4*m)` (R126), in units of 2^-149. -/
def scaledUp (m : Nat) : Option Nat := rnd32 (Config.encPreScale * m)

/-- `rnd32(x + 0.5)` (R126), in units of 2^-149. -/
def halfAdded (x : Nat) : Option Nat := rnd32 (x + f32Half)

/-- The floor of a magnitude in units of 2^-149. -/
def floorUnits (n : Nat) : Nat := n / f32One

/-- Round4 of a magnitude in units of 2^-149 (R126); none is +infinity. -/
def round4 (p : EncRounding) (m : Nat) : Option Nat :=
  match p with
  | .exactHalfUp => some (floorUnits (Config.encPreScale * m + f32Half))
  | .f32AddFloor => ((scaledUp m).bind halfAdded).map floorUnits

/-- TempEncode (R125): the value is not masked to the register format, and the sign bit is ORed in last. -/
def tempEncode (p : EncRounding) (c : Word) : Except FaultCode Half :=
  if f32Finite c then
    match round4 p (f32Mag c) with
    | none   => .error .encodeRange
    | some q =>
      if 0xFFFF < q * Config.encPostScale then .error .encodeRange
      else
        let raw : Half := BitVec.ofNat 16 (q * Config.encPostScale)
        .ok (if f32Negative c then raw ||| Config.signBit else raw)
  else .error .encodeNonFinite

end Sys2Proof.Machine
end

