-- ==== Sys2Proof/WellFormed.lean ====
section
/-! DEFINITION. The REG constraints of 30_encoding.md R62 and R64(b): the only checks on an instruction's
operands beyond their widths. -/

namespace Sys2Proof

/-- The temperature-bearing registers DECODE and RDTEMP accept (R64(b)). -/
def tempRegs : List Byte := [Config.regUpper, Config.regLower, Config.regCrit, Config.regAmbient]

/-- The threshold registers WRTEMP accepts (R64(b)). -/
def thresholdRegs : List Byte := [Config.regUpper, Config.regLower, Config.regCrit]

/-- An instruction some command word encodes: its REG is in its opcode's set, where there is one (R64(b)). -/
def wellFormed : Instr → Bool
  | .bind _     => true
  | .probe      => true
  | .rd8 _      => true
  | .rd16 _     => true
  | .wr8 _ _    => true
  | .wr16 _ _   => true
  | .decode r _ => tempRegs.contains r
  | .encode _   => true
  | .rdtemp r   => tempRegs.contains r
  | .wrtemp r _ => thresholdRegs.contains r
  | .getstatus  => true
  | .setres _   => true

end Sys2Proof
end

