-- ==== Sys2Proof/Machine/Temperature.lean ====
section
/-! DEFINITION. DECODE, ENCODE, RDTEMP, WRTEMP (41_temperature_codec.md). The decoder lets no REG outside the
opcode's set through (30_encoding.md R64); the meanings of such terms fault IllegalCommand all the same, as the rules'
exceptions say (log 11). -/

namespace Sys2Proof.Machine

/-- The exception of R123, R124 and R128: IllegalCommand for a REG outside the opcode's set. -/
def whenRegIn (regs : List Byte) (reg : Byte) (s : State) (k : Out) : Out :=
  if regs.contains reg then k else raiseFault .illegalCommand s

/-- What DECODE and RDTEMP do with a raw value (R123): STATUS is captured for the ambient register only. -/
def decodeTemp (reg : Byte) (raw : Half) (s : State) : Out :=
  complete (.f32 (tempDecode raw)) false
    (if reg = Config.regAmbient then s.captureStatus (statusOf raw) else s)

/-- `raw <- TempEncode(c)`, which may raise (R125). -/
def encodeTemp (c : Word) (s : State) (k : Half → Out) : Out :=
  match tempEncode s.params.encRounding c with
  | .ok raw  => k raw
  | .error e => raiseFault e s

/-- DECODE (R123). -/
def execDecode (reg : Byte) (raw : Half) (s : State) : Out :=
  whenRegIn tempRegs reg s (decodeTemp reg raw s)

/-- ENCODE (R127). -/
def execEncode (c : Word) (s : State) : Out :=
  encodeTemp c s fun raw => complete (.u16 raw) false s

/-- RDTEMP (R124): the bus part of RD16, then DECODE of the received value. -/
def execRdtemp (reg : Byte) (s : State) : Out :=
  whenRegIn tempRegs reg s (whenBound s (readReg16 reg s (decodeTemp reg)))

/-- WRTEMP (R128): TempEncode, then the bus part of WR16. -/
def execWrtemp (reg : Byte) (c : Word) (s : State) : Out :=
  whenRegIn thresholdRegs reg s
    (whenBound s (encodeTemp c s fun raw =>
      writeReg16 reg raw s fun s => complete .none false s))

end Sys2Proof.Machine
end

