-- ==== Sys2Proof/Machine/Dispatch.lean ====
section
/-! DEFINITION. One arm per command (30_encoding.md R62). -/

namespace Sys2Proof.Machine

def exec (i : Instr) (s : State) : Host.Outcome State Fault Refusal :=
  match i with
  | .bind addr => Sys2Proof.Machine.execBind addr s
  | .probe => Sys2Proof.Machine.execProbe s
  | .rd8 reg => Sys2Proof.Machine.execRd8 reg s
  | .rd16 reg => Sys2Proof.Machine.execRd16 reg s
  | .wr8 reg v => Sys2Proof.Machine.execWr8 reg v s
  | .wr16 reg v => Sys2Proof.Machine.execWr16 reg v s
  | .decode reg raw => Sys2Proof.Machine.execDecode reg raw s
  | .encode c => Sys2Proof.Machine.execEncode c s
  | .rdtemp reg => Sys2Proof.Machine.execRdtemp reg s
  | .wrtemp reg c => Sys2Proof.Machine.execWrtemp reg c s
  | .getstatus => Sys2Proof.Machine.execGetstatus s
  | .setres v => Sys2Proof.Machine.execSetres v s

end Sys2Proof.Machine
end

