-- ==== Sys2Proof/Decode.lean ====
section
/-! DEFINITION. The command decoder of 30_encoding.md R65 and the encoder written from the same table (R61, R62).
Both words of a command are given to the decoder; it reads FOP only for ENCODE and WRTEMP (R61). -/

namespace Sys2Proof

/-- Why a command word is illegal (R63, R64(a), R64(b)). All three fault IllegalCommand (R65). -/
inductive DecodeError where
  /-- OP is 0x0, 0xD, 0xE or 0xF (R63). -/
  | reservedOpcode
  /-- RSV or a must-be-zero part of REG or DATA is not zero (R64(a)). -/
  | mustBeZero
  /-- REG is outside the opcode's set (R64(b)). -/
  | regOutsideSet
deriving DecidableEq, Repr

/-- The rows of R62 by name. -/
inductive Opcode where
  | bind | probe | rd8 | rd16 | wr8 | wr16 | decode | encode | rdtemp | wrtemp | getstatus | setres
deriving DecidableEq, Repr

/-- One row of R62: mask, match, and the REG constraint where the row has one. -/
structure Row where
  mask  : Word
  value : Word
  regs  : Option (List Byte)
deriving DecidableEq, Repr

/-- OP, CMD[31:28] (R61). -/
def opField (cmd : Word) : BitVec 4 := cmd.extractLsb' 28 4

/-- RSV, CMD[27:24] (R61). -/
def rsvField (cmd : Word) : BitVec 4 := cmd.extractLsb' 24 4

/-- REG, CMD[23:16] (R61). -/
def regField (cmd : Word) : Byte := cmd.extractLsb' 16 8

/-- DATA, CMD[15:0] (R61). -/
def dataField (cmd : Word) : Half := cmd.extractLsb' 0 16

/-- DATA[7:0], the operand of WR8 and SETRES (R66). -/
def dataLow (cmd : Word) : Byte := cmd.extractLsb' 0 8

/-- The row OP names (R62); none for the reserved opcodes (R63). -/
def opcodeOf (op : BitVec 4) : Option Opcode :=
  match op.toNat with
  | 0x1 => some .bind
  | 0x2 => some .probe
  | 0x3 => some .rd8
  | 0x4 => some .rd16
  | 0x5 => some .wr8
  | 0x6 => some .wr16
  | 0x7 => some .decode
  | 0x8 => some .encode
  | 0x9 => some .rdtemp
  | 0xA => some .wrtemp
  | 0xB => some .getstatus
  | 0xC => some .setres
  | _   => none

/-- R62's mask, match and REG constraint. -/
def row : Opcode → Row
  | .bind      => ⟨0xFFFF0000, 0x10000000, none⟩
  | .probe     => ⟨0xFFFFFFFF, 0x20000000, none⟩
  | .rd8       => ⟨0xFF00FFFF, 0x30000000, none⟩
  | .rd16      => ⟨0xFF00FFFF, 0x40000000, none⟩
  | .wr8       => ⟨0xFF00FF00, 0x50000000, none⟩
  | .wr16      => ⟨0xFF000000, 0x60000000, none⟩
  | .decode    => ⟨0xFF000000, 0x70000000, some tempRegs⟩
  | .encode    => ⟨0xFFFFFFFF, 0x80000000, none⟩
  | .rdtemp    => ⟨0xFF00FFFF, 0x90000000, some tempRegs⟩
  | .wrtemp    => ⟨0xFF00FFFF, 0xA0000000, some thresholdRegs⟩
  | .getstatus => ⟨0xFFFFFFFF, 0xB0000000, none⟩
  | .setres    => ⟨0xFFFFFF00, 0xC0000000, none⟩

/-- Does the row's REG constraint admit `reg`? A row without one admits any (R64(b)). -/
def Row.admits (r : Row) (reg : Byte) : Bool :=
  match r.regs with
  | none   => true
  | some l => l.contains reg

/-- Operand assembly (R66). -/
def assembleOperands (w : Command) : Opcode → Instr
  | .bind      => .bind (dataField w.cmd)
  | .probe     => .probe
  | .rd8       => .rd8 (regField w.cmd)
  | .rd16      => .rd16 (regField w.cmd)
  | .wr8       => .wr8 (regField w.cmd) (dataLow w.cmd)
  | .wr16      => .wr16 (regField w.cmd) (dataField w.cmd)
  | .decode    => .decode (regField w.cmd) (dataField w.cmd)
  | .encode    => .encode w.fop
  | .rdtemp    => .rdtemp (regField w.cmd)
  | .wrtemp    => .wrtemp (regField w.cmd) w.fop
  | .getstatus => .getstatus
  | .setres    => .setres (dataLow w.cmd)

/-- The decoder of R65, total: every command either decodes or is illegal, by name. -/
def decode (w : Command) : Except DecodeError Instr :=
  match opcodeOf (opField w.cmd) with
  | none    => .error .reservedOpcode
  | some op =>
    if w.cmd &&& (row op).mask ≠ (row op).value then .error .mustBeZero
    else if (row op).admits (regField w.cmd) then .ok (assembleOperands w op)
    else .error .regOutsideSet

/-- The packing of R61: `oooo 0000 rrrrrrrr dddddddddddddddd`. -/
def cmdWord (op : BitVec 4) (reg : Byte) (data : Half) : Word :=
  op.zeroExtend 32 <<< 28 ||| reg.zeroExtend 32 <<< 16 ||| data.zeroExtend 32

/-- DATA of an 8-bit operand: DATA[15:8] must be 0 (R62). -/
def dataOfByte (v : Byte) : Half := v.zeroExtend 16

/-- The command of an instruction: every must-be-zero field is 0, and FOP is 0 where the opcode ignores it (R74). -/
def encode : Instr → Command
  | .bind a       => ⟨cmdWord 0x1 0 a, 0⟩
  | .probe        => ⟨cmdWord 0x2 0 0, 0⟩
  | .rd8 r        => ⟨cmdWord 0x3 r 0, 0⟩
  | .rd16 r       => ⟨cmdWord 0x4 r 0, 0⟩
  | .wr8 r v      => ⟨cmdWord 0x5 r (dataOfByte v), 0⟩
  | .wr16 r v     => ⟨cmdWord 0x6 r v, 0⟩
  | .decode r raw => ⟨cmdWord 0x7 r raw, 0⟩
  | .encode c     => ⟨cmdWord 0x8 0 0, c⟩
  | .rdtemp r     => ⟨cmdWord 0x9 r 0, 0⟩
  | .wrtemp r c   => ⟨cmdWord 0xA r 0, c⟩
  | .getstatus    => ⟨cmdWord 0xB 0 0, 0⟩
  | .setres v     => ⟨cmdWord 0xC 0 (dataOfByte v), 0⟩

/-- The row of R62 an instruction belongs to. -/
def opcode : Instr → Opcode
  | .bind _     => .bind
  | .probe      => .probe
  | .rd8 _      => .rd8
  | .rd16 _     => .rd16
  | .wr8 _ _    => .wr8
  | .wr16 _ _   => .wr16
  | .decode _ _ => .decode
  | .encode _   => .encode
  | .rdtemp _   => .rdtemp
  | .wrtemp _ _ => .wrtemp
  | .getstatus  => .getstatus
  | .setres _   => .setres

/-- The command whose bits are `w`, numbered as spec/opcode_table.json numbers them: CMD is bits 31:0, FOP the
word after it, bits 63:32. A row of the table has the 32 bits of CMD, so FOP is then 0 (log 14). -/
def tableCommand (nbits w : Nat) : Command :=
  ⟨BitVec.ofNat 32 (w % 2 ^ nbits), BitVec.ofNat 32 (w % 2 ^ nbits / 2 ^ 32)⟩

/-- The instruction the decoder reads from the bits `w` of the opcode table. -/
def decodeTableWord (nbits w : Nat) : Option Instr :=
  (decode (tableCommand nbits w)).toOption

end Sys2Proof
end

