-- ==== Sys2Proof/Machine/Port.lean ====
section
/-! DEFINITION. The command port (30_encoding.md R60): what the block takes from the host's inputs between commands. -/

namespace Sys2Proof.Machine

/-- What the block finds when it is idle. -/
inductive Fetched where
  /-- No input: the host presents nothing. -/
  | idle
  /-- The reset input (70_reset_and_hazards.md R240). -/
  | reset (s : State)
  /-- A command while FAULT is not 0 (60_exceptions.md R203). -/
  | stuck
  /-- A command the decoder refuses (30_encoding.md R65). -/
  | illegal (s : State)
  /-- A command to execute, taken from the port. -/
  | run (i : Instr) (s : State)
deriving DecidableEq, Repr

/-- R60: the block accepts a command only while FAULT = 0; the decoder's check comes before every other check of the
command (R65, 60_exceptions.md R204). Reset is accepted at any time between commands (R240). -/
def fetch (s : State) : Fetched :=
  match s.inputs with
  | [] => .idle
  | .reset :: rest => .reset (applyReset { s with inputs := rest })
  | .command w :: rest =>
    if s.fault ≠ 0 then .stuck
    else
      match decode w with
      | .error _ => .illegal { s with inputs := rest }
      | .ok i    => .run i { s with inputs := rest }

/-- The host presents a command before anything else it has in mind. -/
def present (w : Command) (s : State) : State :=
  { s with inputs := .command w :: s.inputs }

end Sys2Proof.Machine
end

