-- ==== Sys2Proof/Machine/Step.lean ====
section
/-! DEFINITION. One step of the block: one host input (20_memory.md R52, R55). -/

namespace Sys2Proof.Machine

/-- One command, or one reset, as one atomic step; with no input the idle block stays as it is (log 1). -/
def step (s : State) : Host.Outcome State Fault Refusal :=
  match fetch s with
  | .idle       => .next s
  | .reset s'   => .next s'
  | .stuck      => .fault .halted
  | .illegal s' => raiseFault .illegalCommand s'
  | .run i s'   => exec i s'

/-- The command with the bits `w` of the opcode table, presented so that the next step takes it (log 14). -/
def State.withFetchWord (s : State) (nbits w : Nat) : State :=
  present (tableCommand nbits w) s

end Sys2Proof.Machine
end

