-- ==== Sys2Proof/Machine/Assembler.lean ====
section
/-! DEFINITION. The assembler syntax of 30_encoding.md R74, for the commands of R62 and the pseudo-instructions of
R73: one line of text to the command the host presents. It is no part of the block (92_eei_decisions.md D30). -/

namespace Sys2Proof.Machine

/-- One mnemonic: its OP, a REG fixed by the name (or none, where REG is an operand), and whether it takes DATA and
FOP operands. Operands stand in the order REG, DATA, FOP (R74). -/
structure AsmRow where
  name : String
  op   : BitVec 4
  reg  : Option Byte
  data : Bool
  fop  : Bool
deriving DecidableEq, Repr

/-- The commands (R62), then the pseudo-instructions (R73). -/
def asmRows : List AsmRow :=
  [ ⟨"BIND", 0x1, some 0, true, false⟩, ⟨"PROBE", 0x2, some 0, false, false⟩,
    ⟨"RD8", 0x3, none, false, false⟩, ⟨"RD16", 0x4, none, false, false⟩,
    ⟨"WR8", 0x5, none, true, false⟩, ⟨"WR16", 0x6, none, true, false⟩,
    ⟨"DECODE", 0x7, none, true, false⟩, ⟨"ENCODE", 0x8, some 0, false, true⟩,
    ⟨"RDTEMP", 0x9, none, false, false⟩, ⟨"WRTEMP", 0xA, none, false, true⟩,
    ⟨"GETSTATUS", 0xB, some 0, false, false⟩, ⟨"SETRES", 0xC, some 0, true, false⟩ ]
  ++
  [ ⟨"ISCONNECTED", 0x2, some 0, false, false⟩,
    ⟨"SETTUPPER", 0xA, some 0x02, false, true⟩, ⟨"SETTLOWER", 0xA, some 0x03, false, true⟩,
    ⟨"SETTCRIT", 0xA, some 0x04, false, true⟩,
    ⟨"GETTUPPER", 0x9, some 0x02, false, false⟩, ⟨"GETTLOWER", 0x9, some 0x03, false, false⟩,
    ⟨"GETTCRIT", 0x9, some 0x04, false, false⟩, ⟨"GETTAMB", 0x9, some 0x05, false, false⟩,
    ⟨"SETCONFIG", 0x6, some 0x01, true, false⟩, ⟨"GETCONFIG", 0x4, some 0x01, false, false⟩,
    ⟨"GETRES", 0x3, some 0x08, false, false⟩, ⟨"GETMFR", 0x4, some 0x06, false, false⟩,
    ⟨"GETDEVID", 0x4, some 0x07, false, false⟩, ⟨"GETREV", 0x4, some 0x07, false, false⟩ ]

/-- The digits of R74 in order of their value; the first ten are the decimal ones. -/
def digitSymbols : List Char := "0123456789abcdef".toList

/-- A digit's value is its place among the first `base` symbols; a letter may be of either case (log 17). -/
def digitIn (base : Nat) (c : Char) : Option Nat := (digitSymbols.take base).idxOf? c.toLower

/-- Read on from the value `acc`, the most significant digit first; a symbol that is no digit of the base refuses. -/
def digitsFrom (base acc : Nat) (l : List Char) : Option Nat :=
  l.foldlM (fun n c => (digitIn base c).map (n * base + ·)) acc

/-- A number of at least one digit. -/
def digits (base : Nat) (l : List Char) : Option Nat :=
  if l.isEmpty then none else digitsFrom base 0 l

/-- An integer operand: `0x..` or decimal (R74). -/
def parseInt : List Char → Option Nat
  | '0' :: 'x' :: t => digits 16 t
  | t               => digits 10 t

/-- A decimal number, with or without a point, that binary32 represents exactly (R74). -/
def parseDecimal (neg : Bool) (l : List Char) : Option Word :=
  let whole := l.takeWhile (· != '.')
  let frac := (l.dropWhile (· != '.')).drop 1
  if l.contains '.' && frac.isEmpty then none
  else
    match digits 10 whole, digitsFrom 10 0 frac with
    | some w, some f =>
      let n := (w * 10 ^ frac.length + f) * f32One
      let u := n / 10 ^ frac.length
      if n % 10 ^ frac.length = 0 ∧ rnd32 u = some u then some (f32OfMag neg u) else none
    | _, _ => none

/-- The float operand: `#` and a decimal number, or `#0x` and eight hexadecimal digits (R74). -/
def parseFloat : List Char → Option Word
  | '#' :: '0' :: 'x' :: t => if t.length = 8 then (digits 16 t).map (BitVec.ofNat 32) else none
  | '#' :: '-' :: t        => parseDecimal true t
  | '#' :: t               => parseDecimal false t
  | _                      => none

/-- An integer that fits its field (R74). -/
def parseField (w : Nat) (l : List Char) : Option (BitVec w) :=
  match parseInt l with
  | some n => if n < 2 ^ w then some (BitVec.ofNat w n) else none
  | none   => none

/-- Operands are separated by a comma and a space (R74). -/
def splitOperands : List Char → List (List Char)
  | []                => [[]]
  | ',' :: ' ' :: t   => [] :: splitOperands t
  | c :: t            =>
    match splitOperands t with
    | []     => [[c]]
    | h :: r => (c :: h) :: r

/-- Take one operand where the mnemonic has one; a field without an operand is `fixed`. -/
def takeOperand {α : Type} (wanted : Bool) (fixed : α) (parse : List Char → Option α)
    (l : List (List Char)) : Option (α × List (List Char)) :=
  if wanted then
    match l with
    | []     => none
    | h :: t => (parse h).map fun a => (a, t)
  else some (fixed, l)

/-- The command of a mnemonic and its operands; refused if one is missing, left over or does not fit (R74). -/
def assembleRow (r : AsmRow) (ops : List (List Char)) : Option Command :=
  match takeOperand r.reg.isNone (r.reg.getD 0) (parseField 8) ops with
  | none => none
  | some (reg, ops) =>
    match takeOperand r.data 0 (parseField 16) ops with
    | none => none
    | some (data, ops) =>
      match takeOperand r.fop 0 parseFloat ops with
      | some (fop, []) => some ⟨cmdWord r.op reg data, fop⟩
      | _              => none

/-- One line of assembly (R74). -/
def assemble (line : String) : Option Command :=
  let l := line.toList
  let name := l.takeWhile (· != ' ')
  let rest := (l.dropWhile (· != ' ')).drop 1
  match asmRows.find? (fun r => r.name.toList == name) with
  | none   => none
  | some r => assembleRow r (if l.contains ' ' then splitOperands rest else [])

end Sys2Proof.Machine
end

