-- ==== Sys2Proof/Machine/Platform.lean ====
section
/-! DEFINITION. Several block instances on one bus (60_exceptions.md R209). Each holds its own state; the bus agent is
shared; whole commands interleave in any order, so a move names the instance that moves. -/

namespace Sys2Proof.Machine

/-- Up to DEVICES_PER_BUS instances sharing one bus agent, and the events on the bus with the instance that
emitted each. The instances' own busScript and busDraws are not used: the shared ones are lent to the one that moves. -/
structure Platform where
  blocks    : List State
  busScript : List (Option Byte)
  busDraws  : Nat
  bus       : List (Nat × BusEvent)
deriving DecidableEq, Repr

/-- At most eight instances share a bus (00_scope.md R7, R209). -/
def Platform.wf (p : Platform) : Bool := p.blocks.length ≤ Config.devicesPerBus

/-- Lend the shared bus agent to an instance. -/
def Platform.lend (p : Platform) (s : State) : State :=
  { s with busScript := p.busScript, busDraws := p.busDraws }

/-- Instance `k` has moved from `s` to `t`: the bus agent comes back, and the events the move appended to its history
go on the shared bus, together (20_memory.md R52). -/
def Platform.after (p : Platform) (k : Nat) (s t : State) : Platform :=
  { blocks := p.blocks.set k t, busScript := t.busScript, busDraws := t.busDraws,
    bus := p.bus ++ (t.busHistory.drop s.busHistory.length).map fun e => (k, e) }

/-- Instance `k` takes one step. There is no move of an instance that does not exist. -/
def Platform.move (p : Platform) (k : Nat) : Host.Outcome Platform Fault Refusal :=
  match p.blocks[k]? with
  | none   => .next p
  | some s =>
    match step (p.lend s) with
    | .next t    => .next (p.after k s t)
    | .fault r   => .fault r
    | .refused r => .refused r

end Sys2Proof.Machine
end

