-- ==== Sys2Proof/Machine/Pseudo.lean ====
section
/-! DEFINITION. The pseudo-instructions of 30_encoding.md R73: other names for commands, and the slice the host takes
of the result (R69). -/

namespace Sys2Proof.Machine

/-- The fourteen names of R73. -/
inductive Pseudo where
  | isConnected
  | setTupper (c : Word)
  | setTlower (c : Word)
  | setTcrit (c : Word)
  | getTupper
  | getTlower
  | getTcrit
  | getTamb
  | setConfig (v : Half)
  | getConfig
  | getRes
  | getMfr
  | getDevId
  | getRev
deriving DecidableEq, Repr

/-- The command each name expands to (R73). -/
def Pseudo.expand : Pseudo → Instr
  | .isConnected => .probe
  | .setTupper c => .wrtemp Config.regUpper c
  | .setTlower c => .wrtemp Config.regLower c
  | .setTcrit c  => .wrtemp Config.regCrit c
  | .getTupper   => .rdtemp Config.regUpper
  | .getTlower   => .rdtemp Config.regLower
  | .getTcrit    => .rdtemp Config.regCrit
  | .getTamb     => .rdtemp Config.regAmbient
  | .setConfig v => .wr16 Config.regConfig v
  | .getConfig   => .rd16 Config.regConfig
  | .getRes      => .rd8 Config.regResolution
  | .getMfr      => .rd16 Config.regManufacturer
  | .getDevId    => .rd16 Config.regDevice
  | .getRev      => .rd16 Config.regDevice

/-- What the host makes of the command's result: GETDEVID takes the high byte, GETREV the low one (R69, R73). -/
def Pseudo.hostResult (p : Pseudo) (r : Result) : Result :=
  match p, r with
  | .getDevId, .u16 v => .u8 (v.extractLsb' 8 8)
  | .getRev, .u16 v   => .u8 (v.extractLsb' 0 8)
  | _, r              => r

end Sys2Proof.Machine
end

