-- ==== Sys2Proof/Safety.lean ====
section
/-! DEFINITION. What the host sees, what an observation is, when a run ended well, and the invariant of the block. -/

namespace Sys2Proof

open Sys2Proof.Machine

/-- All the host can read of the block between commands (60_exceptions.md R211): the outputs of the last command and
FAULT. BOUND, DEVADDR, STATUS and STATUS_VALID are not among it. -/
structure HostView where
  port  : Option Output
  fault : BitVec 3
deriving DecidableEq, Repr

/-- The host's view of a state. -/
def hostView (s : State) : HostView := { port := s.port, fault := s.fault }

/-- The observation of a run (00_scope.md R10): the results read, the bus history, the final block state (the five
registers of 10_state.md R20). -/
structure Observation where
  results     : List Output
  busHistory  : List BusEvent
  bound       : Bool
  devAddr     : Byte
  status      : BitVec 3
  statusValid : Bool
  fault       : BitVec 3
deriving DecidableEq, Repr

/-- What is observed at a state. -/
def observe (s : State) : Observation :=
  { results := s.results, busHistory := s.busHistory, bound := s.bound, devAddr := s.devAddr,
    status := s.status, statusValid := s.statusValid, fault := s.fault }

/-- The end of a run that ended well (60_exceptions.md R213): the host's last command has completed and FAULT = 0. -/
def endedWell (s : State) : Prop := s.inputs = [] ∧ s.fault = 0

/-- A run of `n` steps from `s` is safe when it meets neither stop of the machine and leaves FAULT = 0. -/
def safeRun (n : Nat) (s : State) : Prop :=
  match n with
  | 0     => s.fault = 0
  | n + 1 => ∃ t, step s = .next t ∧ safeRun n t

/-- DEVADDR is in the valid range (10_state.md R21). -/
def validDevAddr (a : Byte) : Prop := Config.devAddrMin ≤ a.toNat ∧ a.toNat ≤ Config.devAddrMax

/-- An event the block may emit: only the bus addresses of 20_memory.md R40(a), and only requests of one or two
bytes (R46). -/
def BusEvent.Valid : BusEvent → Prop
  | .beginAt a   => Config.devAddrMin ≤ a.toNat ∧ a.toNat ≤ Config.devAddrMax
  | .request a n => (Config.devAddrMin ≤ a.toNat ∧ a.toNat ≤ Config.devAddrMax) ∧ (n = 1 ∨ n = 2)
  | .write _     => True
  | .ended _     => True
  | .read _      => True
  | .init        => True

/-- The invariant of the block. -/
structure Inv (s : State) : Prop where
  /-- While BOUND = 1, DEVADDR is in 0x18 to 0x1F (10_state.md R21). -/
  devAddr_valid : s.bound = true → validDevAddr s.devAddr
  /-- FAULT holds 0 or a code of 60_exceptions.md R201; 6 and 7 are never raised. -/
  fault_legal : s.fault.toNat ≤ 5
  /-- Nothing reaches the bus before a successful BIND (70_reset_and_hazards.md R242). -/
  bus_silent : s.bound = false → s.busHistory = []
  /-- The first event is the Init of a successful BIND (R242, 42_control.md R140). -/
  init_first : s.bound = true → s.busHistory.head? = some .init
  /-- Every event has a valid bus address and a legal count (20_memory.md R40, R46). -/
  events_valid : ∀ e ∈ s.busHistory, BusEvent.Valid e
  /-- The outputs on the port are the last ones the host has read (10_state.md R27). -/
  port_read : ∀ o, s.port = some o → s.results.getLast? = some o
  /-- FAULT = 0 before any command has faulted, and no output stands after a fault (60_exceptions.md R202). -/
  no_output_after_fault : s.fault ≠ 0 → s.port = none

end Sys2Proof
end

