-- ==== Sys2Proof/Certificates/Slice0/Obligations.lean ====
section
/-! DEFINITION. The statements for the provers, and the words of the spec they are written in. A statement that gives
the next state as `completedOn` or `faultedWith` is also its frame: every field it does not name is unchanged. There is
no local memory (20_memory.md R40), so no frame speaks of memory. Values of temperatures are whole numbers of
2^-149 °C, in which every finite binary32 value is exact: 1 °C is 2^149, 0.25 °C is 2^147, 0.0625 °C is 2^145. -/

namespace Sys2Proof.Certificates

open Sys2Proof.Machine

/-! ### States -/

/-- `s` after a completed command: the bus events it appended, the number of answers it drew, its outputs (10_state.md
R27, R28, 00_scope.md R10). Nothing else is changed. -/
def completedOn (s : State) (ev : List BusEvent) (n : Nat) (r : Result) (g : Bool) : State :=
  { s with busHistory := s.busHistory ++ ev, busScript := s.busScript.drop n, busDraws := s.busDraws + n,
           port := some ⟨r, g⟩, results := s.results ++ [⟨r, g⟩] }

/-- `s` after a command that faulted with this code (60_exceptions.md R202): no other register is changed, and there
is no result and no GUARD. -/
def faultedWith (s : State) (code : BitVec 3) : State := { s with fault := code, port := none }

/-- `DEVADDR[6:0]` (20_memory.md R46). -/
def busAddressOf (s : State) : BitVec 7 := s.devAddr.setWidth 7

/-- The sequence of 20_memory.md R47, reading the bytes `data`, when the bus ends the first transaction with `st`. -/
def readSequence (a : BitVec 7) (reg st : Byte) (data : List Byte) : List BusEvent :=
  [.beginAt a, .write reg, .ended st, .request a data.length] ++ data.map .read

/-- The sequence of 20_memory.md R48, sending the bytes `data`. -/
def writeSequence (a : BitVec 7) (reg : Byte) (data : List Byte) (st : Byte) : List BusEvent :=
  [.beginAt a, .write reg] ++ data.map .write ++ [.ended st]

/-- The high byte of a u16. -/
def high (v : Half) : Byte := (v >>> 8).setWidth 8

/-- The low byte of a u16. -/
def low (v : Half) : Byte := v.setWidth 8

/-- Apply `f` to the next state, if there is one. -/
def mapNext (f : State → State) : Out → Out
  | .next t    => .next (f t)
  | .fault r   => .fault r
  | .refused r => .refused r

/-- The events of an unguarded register access at the bound address, whatever the bus answers (20_memory.md R47,
R48). -/
def accessEvents (a : BitVec 7) : Instr → List BusEvent → Prop
  | .rd8 reg, ev    => ∃ st b0, ev = readSequence a reg st [b0]
  | .rd16 reg, ev   => ∃ st b0 b1, ev = readSequence a reg st [b0, b1]
  | .wr8 reg v, ev  => ∃ st, ev = writeSequence a reg [v] st
  | .wr16 reg v, ev => ∃ st, ev = writeSequence a reg [high v, low v] st
  | _, _            => False

/-! ### Commands -/

/-- `CMD[23:16]` (30_encoding.md R61). -/
def regOf (w : Word) : Byte := (w >>> 16).setWidth 8

/-- The legal command words: the rows of 30_encoding.md R62 with their match, mask and REG constraint. -/
abbrev legal (w : Word) : Prop :=
  w &&& 0xFFFF0000 = 0x10000000 ∨
  w = 0x20000000 ∨
  w &&& 0xFF00FFFF = 0x30000000 ∨
  w &&& 0xFF00FFFF = 0x40000000 ∨
  w &&& 0xFF00FF00 = 0x50000000 ∨
  w &&& 0xFF000000 = 0x60000000 ∨
  (w &&& 0xFF000000 = 0x70000000 ∧ regOf w ∈ [0x02, 0x03, 0x04, 0x05]) ∨
  w = 0x80000000 ∨
  (w &&& 0xFF00FFFF = 0x90000000 ∧ regOf w ∈ [0x02, 0x03, 0x04, 0x05]) ∨
  (w &&& 0xFF00FFFF = 0xA0000000 ∧ regOf w ∈ [0x02, 0x03, 0x04]) ∨
  w = 0xB0000000 ∨
  w &&& 0xFFFFFF00 = 0xC0000000

/-- Does a guard of the source reject the command: the register-address guard (40_register_access.md R100) or the
resolution-value guard (42_control.md R144)? -/
def guardRejects : Instr → Prop
  | .rd8 reg    => 0x08 < reg.toNat
  | .rd16 reg   => 0x08 < reg.toNat
  | .wr8 reg _  => 0x08 < reg.toNat
  | .wr16 reg _ => 0x08 < reg.toNat
  | .setres v   => 4 ≤ v.toNat
  | _           => False

/-- The commands R201 lists under NotBound: those that use the bus. -/
def usesBus : Instr → Prop
  | .probe      => True
  | .rd8 _      => True
  | .rd16 _     => True
  | .wr8 _ _    => True
  | .wr16 _ _   => True
  | .rdtemp _   => True
  | .wrtemp _ _ => True
  | .setres _   => True
  | _           => False

/-- How many answers of the bus agent a command takes: one per BusEnd and BusRead of R47 to R49. -/
def answersUsed : Instr → Nat
  | .probe      => 1
  | .rd8 _      => 2
  | .rd16 _     => 3
  | .wr8 _ _    => 1
  | .wr16 _ _   => 1
  | .rdtemp _   => 3
  | .wrtemp _ _ => 1
  | .setres _   => 1
  | _           => 0

/-- The float operand of ENCODE and WRTEMP. -/
def floatOperand : Instr → Option Word
  | .encode c   => some c
  | .wrtemp _ c => some c
  | _           => none

/-- 4095.875 °C. -/
def encodeLimit : Nat := 32767 * 2 ^ 146

/-- A float operand that neither EncodeNonFinite nor EncodeRange stops: finite, with a magnitude below 4095.875
(41_temperature_codec.md R127). -/
def encodable (c : Word) : Prop := ∃ v, f32Value c = some v ∧ v.natAbs < encodeLimit

/-- The command reaches its bus sequence: no check of 60_exceptions.md R204 stops it. -/
def reachesBus (i : Instr) (s : State) : Prop :=
  usesBus i ∧ wellFormed i = true ∧ ¬ guardRejects i ∧ s.bound = true ∧ ∀ c, floatOperand i = some c → encodable c

/-- The five forms of a result (10_state.md R27). -/
inductive Form where
  | none | bool | u8 | u16 | f32
deriving DecidableEq, Repr

/-- The form of a result. -/
def formOf : Result → Form
  | .none   => .none
  | .bool _ => .bool
  | .u8 _   => .u8
  | .u16 _  => .u16
  | .f32 _  => .f32

/-- The result column of 30_encoding.md R62. -/
def tableForm : Instr → Form
  | .bind _     => .bool
  | .probe      => .bool
  | .rd8 _      => .u8
  | .rd16 _     => .u16
  | .wr8 _ _    => .none
  | .wr16 _ _   => .none
  | .decode _ _ => .f32
  | .encode _   => .u16
  | .rdtemp _   => .f32
  | .wrtemp _ _ => .none
  | .getstatus  => .u8
  | .setres _   => .none

/-- The u16 of R125 for a value `v` and the integer `q` that Round4 gives. -/
def encodedValue (v : Int) (q : Nat) : Half :=
  if v < 0 then BitVec.ofNat 16 (q * 4) ||| 0x1000 else BitVec.ofNat 16 (q * 4)

/-- What DECODE and RDTEMP leave: STATUS is captured for register 0x05 only (41_temperature_codec.md R123). -/
def afterDecode (s : State) (reg : Byte) (raw : Half) : State :=
  if reg = 0x05 then { s with status := (raw >>> 13).setWidth 3, statusValid := true } else s

end Sys2Proof.Certificates

open Sys2Proof Sys2Proof.Machine Sys2Proof.Certificates

/-! ### Encoding -/

/-- Decoding the encoding of a well-formed instruction gives it back, with every operand (30_encoding.md R61, R62,
R65, R66). -/
def Obligations.DecodeOfEncodeIsTheInstruction : Prop :=
  ∀ i : Instr, wellFormed i = true → decode (encode i) = .ok i

/-- A command the decoder accepts is well-formed, its CMD is the encoder's, and so is its FOP where the opcode reads
it. -/
def Obligations.EncodeOfDecodeIsTheCommand : Prop :=
  ∀ (w : Command) (i : Instr), decode w = .ok i →
    wellFormed i = true ∧ (encode i).cmd = w.cmd ∧ (floatOperand i ≠ none → (encode i).fop = w.fop)

/-- 30_encoding.md R63, R64: the words outside the table, and only they, are illegal and fault IllegalCommand. -/
def Obligations.IllegalCommandsFaultAndLegalOnesDecode : Prop :=
  (∀ (s : State) (w : Command) (rest : List HostInput),
    s.fault = 0 → s.inputs = .command w :: rest → ¬ legal w.cmd →
      step s = .next (faultedWith { s with inputs := rest } 1)) ∧
  (∀ (s : State) (w : Command) (rest : List HostInput), s.fault = 0 → s.inputs = .command w :: rest →
    w.cmd >>> 28 = 0x0 ∨ w.cmd >>> 28 = 0xD ∨ w.cmd >>> 28 = 0xE ∨ w.cmd >>> 28 = 0xF →
      step s = .next (faultedWith { s with inputs := rest } 1)) ∧
  (∀ w : Command, legal w.cmd → ∃ i, decode w = .ok i)

/-- 30_encoding.md R61: only ENCODE and WRTEMP read FOP. -/
def Obligations.OnlyEncodeAndWrtempReadFop : Prop :=
  ∀ (c f f' : Word), c >>> 28 ≠ 0x8 → c >>> 28 ≠ 0xA → decode ⟨c, f⟩ = decode ⟨c, f'⟩

/-- 30_encoding.md R76: CMD[31:28] alone tells the opcode. -/
def Obligations.OpcodeFieldAloneTellsTheCommand : Prop :=
  ∀ (w w' : Command) (i i' : Instr), decode w = .ok i → decode w' = .ok i' →
    (w.cmd >>> 28 = w'.cmd >>> 28 ↔ opcode i = opcode i')

/-- 30_encoding.md R75: the encoding examples, assembled and decoded. -/
def Obligations.EncodingExamplesOfTheSpec : Prop :=
  (assemble "BIND 0x18" = some ⟨0x10000018, 0⟩ ∧ decodeTableWord 32 0x10000018 = some (.bind 0x18)) ∧
  (assemble "PROBE" = some ⟨0x20000000, 0⟩ ∧ decodeTableWord 32 0x20000000 = some .probe) ∧
  (assemble "RD8 0x08" = some ⟨0x30080000, 0⟩ ∧ decodeTableWord 32 0x30080000 = some (.rd8 0x08)) ∧
  (assemble "RD16 0x05" = some ⟨0x40050000, 0⟩ ∧ decodeTableWord 32 0x40050000 = some (.rd16 0x05)) ∧
  (assemble "WR8 0x08, 0x03" = some ⟨0x50080003, 0⟩ ∧ decodeTableWord 32 0x50080003 = some (.wr8 0x08 0x03)) ∧
  (assemble "WR16 0x01, 0x0100" = some ⟨0x60010100, 0⟩ ∧ decodeTableWord 32 0x60010100 = some (.wr16 0x01 0x0100)) ∧
  (assemble "DECODE 0x05, 0xC190" = some ⟨0x7005C190, 0⟩ ∧
    decodeTableWord 32 0x7005C190 = some (.decode 0x05 0xC190)) ∧
  (assemble "ENCODE #-1.0" = some ⟨0x80000000, 0xBF800000⟩ ∧
    decode ⟨0x80000000, 0xBF800000⟩ = .ok (.encode 0xBF800000)) ∧
  (assemble "RDTEMP 0x05" = some ⟨0x90050000, 0⟩ ∧ decodeTableWord 32 0x90050000 = some (.rdtemp 0x05)) ∧
  (assemble "WRTEMP 0x02, #25.0" = some ⟨0xA0020000, 0x41C80000⟩ ∧
    decode ⟨0xA0020000, 0x41C80000⟩ = .ok (.wrtemp 0x02 0x41C80000)) ∧
  (assemble "GETSTATUS" = some ⟨0xB0000000, 0⟩ ∧ decodeTableWord 32 0xB0000000 = some .getstatus) ∧
  (assemble "SETRES 3" = some ⟨0xC0000003, 0⟩ ∧ decodeTableWord 32 0xC0000003 = some (.setres 3))

/-- 30_encoding.md R73: each pseudo-instruction's expansion, a line of its assembly gives that command, and GETDEVID and
GETREV are the high and low byte of what the bus gave for register 0x07 (R69). -/
def Obligations.PseudoInstructionsAreTheirCommands : Prop :=
  (Pseudo.isConnected.expand = .probe ∧
   (∀ c, (Pseudo.setTupper c).expand = .wrtemp 0x02 c) ∧ (∀ c, (Pseudo.setTlower c).expand = .wrtemp 0x03 c) ∧
   (∀ c, (Pseudo.setTcrit c).expand = .wrtemp 0x04 c) ∧ Pseudo.getTupper.expand = .rdtemp 0x02 ∧
   Pseudo.getTlower.expand = .rdtemp 0x03 ∧ Pseudo.getTcrit.expand = .rdtemp 0x04 ∧
   Pseudo.getTamb.expand = .rdtemp 0x05 ∧ (∀ v, (Pseudo.setConfig v).expand = .wr16 0x01 v) ∧
   Pseudo.getConfig.expand = .rd16 0x01 ∧ Pseudo.getRes.expand = .rd8 0x08 ∧ Pseudo.getMfr.expand = .rd16 0x06 ∧
   Pseudo.getDevId.expand = .rd16 0x07 ∧ Pseudo.getRev.expand = .rd16 0x07) ∧
  (assemble "ISCONNECTED" = some (encode Pseudo.isConnected.expand) ∧
   assemble "SETTUPPER #25.0" = some (encode (Pseudo.setTupper 0x41C80000).expand) ∧
   assemble "SETTLOWER #25.0" = some (encode (Pseudo.setTlower 0x41C80000).expand) ∧
   assemble "SETTCRIT #25.0" = some (encode (Pseudo.setTcrit 0x41C80000).expand) ∧
   assemble "GETTUPPER" = some (encode Pseudo.getTupper.expand) ∧
   assemble "GETTLOWER" = some (encode Pseudo.getTlower.expand) ∧
   assemble "GETTCRIT" = some (encode Pseudo.getTcrit.expand) ∧
   assemble "GETTAMB" = some (encode Pseudo.getTamb.expand) ∧
   assemble "SETCONFIG 0x0100" = some (encode (Pseudo.setConfig 0x0100).expand) ∧
   assemble "GETCONFIG" = some (encode Pseudo.getConfig.expand) ∧
   assemble "GETRES" = some (encode Pseudo.getRes.expand) ∧
   assemble "GETMFR" = some (encode Pseudo.getMfr.expand) ∧
   assemble "GETDEVID" = some (encode Pseudo.getDevId.expand) ∧
   assemble "GETREV" = some (encode Pseudo.getRev.expand)) ∧
  ∀ (s : State) (st b0 b1 : Byte), s.bound = true →
    s.answer 0 = some st → s.answer 1 = some b0 → s.answer 2 = some b1 →
    ∃ (t : State) (r : Result), exec Pseudo.getDevId.expand s = .next t ∧ exec Pseudo.getRev.expand s = .next t ∧
      t.port = some ⟨r, false⟩ ∧ Pseudo.getDevId.hostResult r = .u8 b0 ∧ Pseudo.getRev.hostResult r = .u8 b1

/-! ### The step -/

/-- A step with a command on the port, while FAULT = 0, is exec of the decoded command on the state with that command
taken from the port (30_encoding.md R60). -/
def Obligations.StepRunsTheDecodedCommand : Prop :=
  ∀ (s : State) (w : Command) (rest : List HostInput) (i : Instr),
    s.fault = 0 → s.inputs = .command w :: rest → decode w = .ok i →
      step s = exec i { s with inputs := rest }

/-- The instruction a word of the opcode table decodes to is the very next one that runs (log 14). -/
def Obligations.FetchWordRunsNext : Prop :=
  ∀ (s : State) (n w : Nat) (i : Instr), s.fault = 0 → decodeTableWord n w = some i →
    step (s.withFetchWord n w) = exec i s

/-- 60_exceptions.md R203: a halted block accepts no command, keeps its first code, only reset clears it, and a
run that stops there has not ended well. That the refused command is a stop of the machine, with whatever stands after
it in the inputs (a later reset too) left unread, is the model's (log 4, DEDUCED); that an idle step gives the same
state is the model's choice (log 1). -/
def Obligations.HaltedBlockExecutesNothing : Prop :=
  (∀ (s : State) (w : Command) (rest : List HostInput),
    s.fault ≠ 0 → s.inputs = .command w :: rest → step s = .fault .halted) ∧
  (∀ s t : State, s.fault ≠ 0 → step s = .next t →
    (t.fault = s.fault ∧ t = s) ∨ (∃ rest, s.inputs = .reset :: rest ∧ t.fault = 0)) ∧
  (∀ (s : State) (rest : List HostInput), s.inputs = .reset :: rest → ∃ t, step s = .next t ∧ t.fault = 0) ∧
  (∀ s : State, s.fault ≠ 0 → ¬ endedWell s)

/-- 70_reset_and_hazards.md R240 to R242: what reset leaves, at power-up and from the reset input, in any state. The
values of DEVADDR and STATUS are the model's own (log 5, 6) and no part of this statement. The defaults of the
parameters are 00_scope.md R7's; that they stand in State is the model's choice (log 7), as it is that the host's
further inputs and the bus agent are kept and the results start empty (log 9). -/
def Obligations.ResetRestoresTheResetValues : Prop :=
  (State.reset.bound = false ∧ State.reset.statusValid = false ∧ State.reset.fault = 0 ∧
    State.reset.busHistory = [] ∧ State.reset.params = ⟨.exactHalfUp, .fault⟩) ∧
  ∀ (s : State) (rest : List HostInput), s.inputs = .reset :: rest →
    ∃ t, step s = .next t ∧ t.bound = false ∧ t.statusValid = false ∧ t.fault = 0 ∧ t.busHistory = [] ∧
      t.port = none ∧ t.results = [] ∧ t.inputs = rest ∧ t.busScript = s.busScript ∧ t.busDraws = s.busDraws ∧
      t.params = s.params

/-- The model's choice (log 1): with nothing presented, the block stays as it is. -/
def Obligations.IdleBlockStaysAsItIs : Prop :=
  ∀ s : State, s.inputs = [] → step s = .next s

/-- No step changes the parameters (00_scope.md R7); each takes one input of the host and draws answers in order. The
fields this speaks of are the model's choice: the host's inputs, one taken a step (log 1), the bus agent's answers and
their counter (log 2), the parameters in State (log 7), and that a reset input keeps all of them (log 9). -/
def Obligations.StepKeepsParametersAndTakesOneInput : Prop :=
  ∀ s t : State, step s = .next t →
    t.params = s.params ∧ t.inputs = s.inputs.tail ∧
      ∃ n, t.busScript = s.busScript.drop n ∧ t.busDraws = s.busDraws + n

/-! ### Faults, checks and guards -/

/-- 60_exceptions.md R202: a command that faults writes FAULT and nothing else; one that completes leaves FAULT. -/
def Obligations.FaultWritesOnlyFault : Prop :=
  (∀ (i : Instr) (s t : State), exec i s = .next t →
    (t.port = none → ∃ code ∈ ([1, 2, 3, 4, 5] : List (BitVec 3)), t = faultedWith s code) ∧
    (t.port ≠ none → t.fault = s.fault)) ∧
  ∀ (s : State) (w : Command) (rest : List HostInput) (e : DecodeError), s.fault = 0 →
    s.inputs = .command w :: rest → decode w = .error e →
      step s = .next (faultedWith { s with inputs := rest } 1)

/-- 60_exceptions.md R201: every fault code with its cause and the commands that raise it; no other code is raised. -/
def Obligations.FaultCodesHaveTheirCauses : Prop :=
  ∀ s t : State, s.fault = 0 → step s = .next t → t.fault ≠ 0 →
    ∃ (w : Command) (rest : List HostInput), s.inputs = .command w :: rest ∧
      t = faultedWith { s with inputs := rest } t.fault ∧
      ((t.fault = 1 ∧ ¬ legal w.cmd) ∨
       ∃ i, decode w = .ok i ∧
        ((t.fault = 2 ∧ s.bound = false ∧ usesBus i ∧ ¬ guardRejects i) ∨
         (t.fault = 3 ∧ ∃ c, floatOperand i = some c ∧ f32Value c = none) ∨
         (t.fault = 4 ∧ ∃ c v, floatOperand i = some c ∧ f32Value c = some v ∧
            ∀ q, round4 s.params.encRounding v.natAbs = some q → 0xFFFF < q * 4) ∨
         (t.fault = 5 ∧ i = .getstatus ∧ s.statusValid = false ∧ s.params.statusBeforeRead = .fault)))

/-- 60_exceptions.md R204: the order of checks. -/
def Obligations.ChecksComeInTheOrderOfTheSpec : Prop :=
  (∀ (s : State) (w : Command) (rest : List HostInput), s.fault = 0 → s.inputs = .command w :: rest →
    ¬ legal w.cmd → step s = .next (faultedWith { s with inputs := rest } 1)) ∧
  ∀ (i : Instr) (s : State), wellFormed i = true →
    (guardRejects i → ∃ r, exec i s = .next (completedOn s [] 0 r true)) ∧
    (¬ guardRejects i → usesBus i → s.bound = false → exec i s = .next (faultedWith s 2)) ∧
    (∀ c, floatOperand i = some c → (usesBus i → s.bound = true) →
      (f32Value c = none → exec i s = .next (faultedWith s 3)) ∧
      (∀ v, f32Value c = some v →
        (∀ q, round4 s.params.encRounding v.natAbs = some q → 0xFFFF < q * 4) →
          exec i s = .next (faultedWith s 4))) ∧
    (i = .getstatus → s.statusValid = false → s.params.statusBeforeRead = .fault →
      exec i s = .next (faultedWith s 5)) ∧
    ((usesBus i → reachesBus i s) → (∀ c, floatOperand i = some c → encodable c) →
      (i = .getstatus → s.statusValid = true ∨ s.params.statusBeforeRead = .zero) →
        ∀ t, exec i s = .next t → t.port ≠ none)

/-- 41_temperature_codec.md R123, R124, R128: the IllegalCommand of a REG outside the opcode's set. The decoder lets no
such command through, so a step raises it (30_encoding.md R64); that the meaning raises it too is log 11. -/
def Obligations.RegOutsideTheSetIsIllegal : Prop :=
  ∀ (reg : Byte) (s : State),
    (reg ∉ ([0x02, 0x03, 0x04, 0x05] : List Byte) →
      (∀ raw, exec (.decode reg raw) s = .next (faultedWith s 1)) ∧ exec (.rdtemp reg) s = .next (faultedWith s 1)) ∧
    (reg ∉ ([0x02, 0x03, 0x04] : List Byte) → ∀ c, exec (.wrtemp reg c) s = .next (faultedWith s 1))

/-- 40_register_access.md R105: a guarded access is observationally a no-op, bound or not. -/
def Obligations.GuardedAccessIsANoOp : Prop :=
  ∀ (reg : Byte) (s : State), 0x08 < reg.toNat →
    exec (.rd8 reg) s = .next (completedOn s [] 0 (.u8 0) true) ∧
    exec (.rd16 reg) s = .next (completedOn s [] 0 (.u16 0) true) ∧
    (∀ v, exec (.wr8 reg v) s = .next (completedOn s [] 0 .none true)) ∧
    (∀ v, exec (.wr16 reg v) s = .next (completedOn s [] 0 .none true))

/-- 10_state.md R28: GUARD is 1 exactly when a guard of the source rejected the command. -/
def Obligations.GuardIsOneExactlyWhenAGuardRejects : Prop :=
  ∀ (i : Instr) (s t : State) (o : Output), exec i s = .next t → t.port = some o →
    (o.guard = true ↔ guardRejects i)

/-- 10_state.md R27: the form of the result is fixed by the command, as 30_encoding.md R62 lists it, and the host reads
it in order; the only other end is a fault, which gives none. -/
def Obligations.ResultFormIsFixedByTheCommand : Prop :=
  ∀ (i : Instr) (s t : State), exec i s = .next t →
    (∃ o, t.port = some o ∧ formOf o.result = tableForm i ∧ t.results = s.results ++ [o]) ∨
    (∃ code, code ≠ 0 ∧ t = faultedWith s code)

/-- 70_reset_and_hazards.md R247: a command stops exactly when it has reached the bus and an answer it needs never
comes; no command is refused. -/
def Obligations.CommandStopsExactlyOnASilentBus : Prop :=
  ∀ (i : Instr) (s : State),
    ((∃ r, exec i s = .fault r) ↔ reachesBus i s ∧ ∃ k < answersUsed i, s.answer k = none) ∧
    (∀ r, exec i s = .fault r → r = .busNeverAnswers) ∧
    (∀ r, exec i s ≠ .refused r)

/-! ### The commands -/

/-- 42_control.md R140: BIND, for every operand. -/
def Obligations.BindLatchesExactlyTheValidAddresses : Prop :=
  ∀ (a : Half) (s : State),
    (24 ≤ a.toNat ∧ a.toNat ≤ 31 →
      exec (.bind a) s = .next (completedOn { s with devAddr := low a, bound := true } [.init] 0 (.bool true) false)) ∧
    (¬ (24 ≤ a.toNat ∧ a.toNat ≤ 31) →
      exec (.bind a) s = .next (completedOn s [] 0 (.bool false) false))

/-- 20_memory.md R49, 42_control.md R141: the probe. -/
def Obligations.ProbeAsksTheBoundAddress : Prop :=
  ∀ (s : State) (st : Byte), s.bound = true → s.answer 0 = some st →
    exec .probe s =
      .next (completedOn s [.beginAt (busAddressOf s), .ended st] 1 (.bool (decide (st = 0))) false)

/-- 20_memory.md R47: the register reads RD8 and RD16. -/
def Obligations.RegisterReadsRunTheReadSequence : Prop :=
  ∀ (reg st b0 b1 : Byte) (s : State), reg.toNat ≤ 0x08 → s.bound = true →
    s.answer 0 = some st → s.answer 1 = some b0 →
    exec (.rd8 reg) s =
      .next (completedOn s (readSequence (busAddressOf s) reg st [b0]) 2 (.u8 b0) false) ∧
    (s.answer 2 = some b1 →
      exec (.rd16 reg) s =
        .next (completedOn s (readSequence (busAddressOf s) reg st [b0, b1]) 3 (.u16 (b0 ++ b1)) false))

/-- 20_memory.md R45, R48: the register writes WR8 and WR16. -/
def Obligations.RegisterWritesRunTheWriteSequence : Prop :=
  ∀ (reg st v8 : Byte) (v16 : Half) (s : State), reg.toNat ≤ 0x08 → s.bound = true → s.answer 0 = some st →
    exec (.wr8 reg v8) s =
      .next (completedOn s (writeSequence (busAddressOf s) reg [v8] st) 1 .none false) ∧
    exec (.wr16 reg v16) s =
      .next (completedOn s (writeSequence (busAddressOf s) reg [high v16, low v16] st) 1 .none false)

/-- 40_register_access.md R107: a completed unguarded register access writes no block register and appends exactly
the sequence of its rule, 5, 6, 4 or 5 events, with no Init among them. -/
def Obligations.UnguardedAccessEventCounts : Prop :=
  ∀ (i : Instr) (n : Nat),
    ((∃ reg, i = .rd8 reg ∧ n = 5) ∨ (∃ reg, i = .rd16 reg ∧ n = 6) ∨
     (∃ reg v, i = .wr8 reg v ∧ n = 4) ∨ (∃ reg v, i = .wr16 reg v ∧ n = 5)) →
    ¬ guardRejects i → ∀ s t : State, exec i s = .next t → t.port ≠ none →
      (t.bound = s.bound ∧ t.devAddr = s.devAddr ∧ t.status = s.status ∧ t.statusValid = s.statusValid ∧
        t.fault = s.fault) ∧
      ∃ ev, t.busHistory = s.busHistory ++ ev ∧ accessEvents (busAddressOf s) i ev ∧ ev.length = n ∧
        BusEvent.init ∉ ev

/-- 40_register_access.md R106: RD16 returns the value whose two bytes, as WR16 sent them, the bus answers. -/
def Obligations.ReadReturnsWhatWriteSent : Prop :=
  ∀ (reg : Byte) (v : Half) (s t u : State) (a : BitVec 7) (b0 b1 st st' : Byte),
    reg.toNat ≤ 0x08 → s.bound = true → exec (.wr16 reg v) s = .next t →
    t.busHistory = s.busHistory ++ [.beginAt a, .write reg, .write b0, .write b1, .ended st] →
    u.bound = true → u.answer 0 = some st' → u.answer 1 = some b0 → u.answer 2 = some b1 →
    ∃ u', exec (.rd16 reg) u = .next u' ∧ u'.port = some ⟨.u16 v, false⟩

/-- 41_temperature_codec.md R123: DECODE of a temperature-bearing register. -/
def Obligations.DecodeGivesTheTemperature : Prop :=
  ∀ (reg : Byte) (raw : Half) (s : State), reg ∈ ([0x02, 0x03, 0x04, 0x05] : List Byte) →
    exec (.decode reg raw) s =
      .next (completedOn (afterDecode s reg raw) [] 0 (.f32 (tempDecode raw)) false)

/-- 41_temperature_codec.md R124: RDTEMP reads as RD16 and decodes as DECODE. -/
def Obligations.RdtempReadsAndDecodes : Prop :=
  ∀ (reg st b0 b1 : Byte) (s : State), reg ∈ ([0x02, 0x03, 0x04, 0x05] : List Byte) → s.bound = true →
    s.answer 0 = some st → s.answer 1 = some b0 → s.answer 2 = some b1 →
    exec (.rdtemp reg) s =
      .next (completedOn (afterDecode s reg (b0 ++ b1)) (readSequence (busAddressOf s) reg st [b0, b1]) 3
        (.f32 (tempDecode (b0 ++ b1))) false)

/-- 41_temperature_codec.md R125, R127: ENCODE of every finite value below 4095.875 in magnitude, under either setting
of ENC_ROUNDING. -/
def Obligations.EncodeGivesTheRawValue : Prop :=
  ∀ (c : Word) (v : Int) (s : State), f32Value c = some v → v.natAbs < encodeLimit →
    ∃ q, round4 s.params.encRounding v.natAbs = some q ∧ q * 4 ≤ 0xFFFF ∧
      exec (.encode c) s = .next (completedOn s [] 0 (.u16 (encodedValue v q)) false)

/-- 41_temperature_codec.md R128: WRTEMP encodes as ENCODE and writes as WR16. -/
def Obligations.WrtempEncodesAndWrites : Prop :=
  ∀ (reg st : Byte) (c : Word) (v : Int) (s : State), reg ∈ ([0x02, 0x03, 0x04] : List Byte) →
    s.bound = true → s.answer 0 = some st → f32Value c = some v → v.natAbs < encodeLimit →
    ∃ q, round4 s.params.encRounding v.natAbs = some q ∧ q * 4 ≤ 0xFFFF ∧
      exec (.wrtemp reg c) s =
        .next (completedOn s
          (writeSequence (busAddressOf s) reg [high (encodedValue v q), low (encodedValue v q)] st) 1 .none false)

/-- 42_control.md R142: GETSTATUS. -/
def Obligations.GetstatusReturnsTheCapturedBits : Prop :=
  ∀ s : State,
    (s.statusValid = true → exec .getstatus s = .next (completedOn s [] 0 (.u8 (s.status.setWidth 8)) false)) ∧
    (s.statusValid = false → s.params.statusBeforeRead = .zero →
      exec .getstatus s = .next (completedOn s [] 0 (.u8 0) false)) ∧
    (s.statusValid = false → s.params.statusBeforeRead = .fault →
      exec .getstatus s = .next (faultedWith s 5))

/-- 42_control.md R143, R144: SETRES writes 0 to 3 and drops 4 to 255, bound or not. -/
def Obligations.SetresWritesOnlyValidResolutions : Prop :=
  ∀ (v : Byte) (s : State),
    (4 ≤ v.toNat → exec (.setres v) s = .next (completedOn s [] 0 .none true)) ∧
    (v.toNat < 4 → ∀ st, s.bound = true → s.answer 0 = some st →
      exec (.setres v) s = .next (completedOn s (writeSequence (busAddressOf s) 0x08 [v] st) 1 .none false))

/-- 60_exceptions.md R212: a bus failure is never a fault. A register command completes whatever the answers are, and
an end status other than PROBE's changes nothing but the event that records it: the two next states differ in that one
event, or in the answer itself where the command drew none. -/
def Obligations.BusFailureIsNeverAFault : Prop :=
  (∀ (i : Instr) (s : State), reachesBus i s → (∀ k < answersUsed i, s.answer k ≠ none) →
    ∃ t o, exec i s = .next t ∧ t.port = some o ∧ t.fault = s.fault) ∧
  (∀ (i : Instr) (s t : State) (st st' : Byte) (later : List (Option Byte)), i ≠ .probe →
    exec i { s with busScript := some st :: later } = .next t →
    ∃ t', exec i { s with busScript := some st' :: later } = .next t' ∧
      ((t.busScript = some st :: later ∧ t' = { t with busScript := some st' :: later }) ∨
        ∃ before after, t.busHistory = s.busHistory ++ before ++ [.ended st] ++ after ∧
          t' = { t with busHistory := s.busHistory ++ before ++ [.ended st'] ++ after }))

/-! ### Whole-machine rules -/

/-- 10_state.md R20, R22, R24: only BIND writes BOUND and DEVADDR, only an ambient decode writes STATUS and
STATUS_VALID, and no command clears BOUND or STATUS_VALID. -/
def Obligations.RegistersHaveTheirWriters : Prop :=
  ∀ (i : Instr) (s t : State), exec i s = .next t →
    ((t.bound = s.bound ∧ t.devAddr = s.devAddr) ∨
      ∃ a, i = .bind a ∧ 24 ≤ a.toNat ∧ a.toNat ≤ 31 ∧ t.bound = true ∧ t.devAddr = low a) ∧
    ((t.status = s.status ∧ t.statusValid = s.statusValid) ∨
      (((∃ raw, i = .decode 0x05 raw) ∨ i = .rdtemp 0x05) ∧ t.statusValid = true)) ∧
    (s.bound = true → t.bound = true) ∧ (s.statusValid = true → t.statusValid = true)

/-- 00_scope.md R10: the block reads the bus history only by appending to it. -/
def Obligations.BusHistoryIsOnlyAppendedTo : Prop :=
  ∀ (i : Instr) (s : State) (h : List BusEvent),
    exec i { s with busHistory := h ++ s.busHistory } =
      mapNext (fun t => { t with busHistory := h ++ t.busHistory }) (exec i s) ∧
    ∀ t, exec i s = .next t → ∃ ev, t.busHistory = s.busHistory ++ ev

/-- 10_state.md R21, R23, 93_implementation_defined.md item 17: what DEVADDR and STATUS hold before they are written is
never read. -/
def Obligations.ValuelessRegistersAreNeverRead : Prop :=
  ∀ (i : Instr) (s : State),
    (s.bound = false → ∀ a : Byte,
      exec i { s with devAddr := a } =
        mapNext (fun t => if t.bound then t else { t with devAddr := a }) (exec i s)) ∧
    (s.statusValid = false → ∀ st : BitVec 3,
      exec i { s with status := st } =
        mapNext (fun t => if t.statusValid then t else { t with status := st }) (exec i s))

/-- 60_exceptions.md R211: the host's only view of STATUS is GETSTATUS. No other command's outputs, events or effects
depend on STATUS or STATUS_VALID. -/
def Obligations.OnlyGetstatusShowsStatus : Prop :=
  ∀ (i : Instr) (s : State) (st : BitVec 3) (v : Bool), i ≠ .getstatus →
    mapNext (fun t => { t with status := 0, statusValid := false }) (exec i { s with status := st, statusValid := v }) =
      mapNext (fun t => { t with status := 0, statusValid := false }) (exec i s)

/-- The invariant holds after reset. -/
def Obligations.ResetSatisfiesTheInvariant : Prop := Inv State.reset

/-- Every step keeps the invariant (10_state.md R21, R27, 20_memory.md R40, R46, 60_exceptions.md R201,
70_reset_and_hazards.md R242). -/
def Obligations.EveryStepKeepsTheInvariant : Prop :=
  ∀ s t : State, Inv s → step s = .next t → Inv t

/-- 60_exceptions.md R209: a move of instance `k` moves no other; it is one step of that instance, whose new events,
and no others, stand together at the end of the shared bus under its number, and whose bus agent is the shared one, lent
and given back. A step only appends to the instance's history, unless it is a reset, which emits nothing
(70_reset_and_hazards.md R242). The form of the platform, one list of answers shared by all, is the model's choice
(log 15). -/
def Obligations.PlatformMovesOneInstanceAtATime : Prop :=
  ∀ (p q : Platform) (k : Nat), p.move k = .next q →
    q.blocks.length = p.blocks.length ∧ (∀ j, j ≠ k → q.blocks[j]? = p.blocks[j]?) ∧
    (p.blocks[k]? = none → q = p) ∧
    (∀ s, p.blocks[k]? = some s → ∃ t, step (p.lend s) = .next t ∧ q.blocks[k]? = some t ∧
      q.bus = p.bus ++ (t.busHistory.drop s.busHistory.length).map (fun e => (k, e)) ∧
      q.busScript = t.busScript ∧ q.busDraws = t.busDraws ∧
      (t.busHistory = s.busHistory ++ t.busHistory.drop s.busHistory.length ∨
        (s.inputs.head? = some .reset ∧ t.busHistory = [])))

/-! ### The codec -/

/-- 41_temperature_codec.md R120: TempDecode, its exactness, its range and its shape. -/
def Obligations.TempDecodeIsExact : Prop :=
  ∀ raw : Half,
    f32Value (tempDecode raw) =
      some (if raw.getLsbD 12 then ((raw.setWidth 12).toNat : Int) * 2 ^ 145 - 256 * 2 ^ 149
            else ((raw.setWidth 12).toNat : Int) * 2 ^ 145) ∧
    tempDecode raw = tempDecode (raw &&& 0x1FFF) ∧
    (∀ v, f32Value (tempDecode raw) = some v →
      (raw.getLsbD 12 = false → 0 ≤ v ∧ v ≤ 4095 * 2 ^ 145) ∧
      (raw.getLsbD 12 = true → -256 * 2 ^ 149 ≤ v ∧ v ≤ -(2 ^ 145))) ∧
    (raw &&& 0x1FFF = 0 → tempDecode raw = 0x00000000) ∧
    tempDecode raw ≠ 0x80000000 ∧ (f32Exp (tempDecode raw) ≠ 0 ∨ tempDecode raw = 0x00000000)

/-- 41_temperature_codec.md R121: TempDecode is the 13-bit two's-complement value times 2^-4. -/
def Obligations.TempDecodeIsTwosComplement : Prop :=
  ∀ raw : Half, f32Value (tempDecode raw) = some ((raw.setWidth 13).toInt * 2 ^ 145)

/-- 41_temperature_codec.md R122: StatusOf, by its formula and as the field raw16[15:13]. -/
def Obligations.StatusOfIsTheTopThreeBits : Prop :=
  ∀ raw : Half, statusOf raw = ((raw &&& 0xE000) >>> 13).setWidth 3 ∧ statusOf raw = raw.extractLsb' 13 3

/-- 41_temperature_codec.md R125, R127: the faults of TempEncode, under either setting of ENC_ROUNDING. EncodeRange is
exactly |c| >= 4095.875. -/
def Obligations.TempEncodeFaultsExactlyOutsideItsRange : Prop :=
  ∀ (p : EncRounding) (c : Word),
    (tempEncode p c = .error .encodeNonFinite ↔ f32Value c = none) ∧
    (tempEncode p c = .error .encodeRange ↔ ∃ v, f32Value c = some v ∧ encodeLimit ≤ v.natAbs) ∧
    ((∃ raw, tempEncode p c = .ok raw) ↔ encodable c)

/-- 41_temperature_codec.md R126: what each of the two settings of ENC_ROUNDING gives, where they agree and where they
first differ. F32_ADD_FLOOR is floor(rnd32(rnd32(4*m) + 0.5)), with no value where either rnd32 overflows. On multiples
of 2^-4 the two agree as encoders, not as Round4 (log 13). -/
def Obligations.RoundingSettingsAgreeAndDiffer : Prop :=
  (∀ m : Nat, ∃ q, round4 .exactHalfUp m = some q ∧
    q * 2 ^ 149 ≤ 4 * m + 2 ^ 148 ∧ 4 * m + 2 ^ 148 < (q + 1) * 2 ^ 149) ∧
  (∀ m q : Nat, round4 .f32AddFloor m = some q ↔
    ∃ x y, rnd32 (4 * m) = some x ∧ rnd32 (x + 2 ^ 148) = some y ∧ q = y / 2 ^ 149) ∧
  (∀ (c : Word) (v : Int) (j : Int), f32Value c = some v → v = j * 2 ^ 145 →
    tempEncode .exactHalfUp c = tempEncode .f32AddFloor c) ∧
  (∀ c : Word, f32Finite c = true → f32Mag c < f32Mag 0x3DFFFFFF →
    round4 .exactHalfUp (f32Mag c) = round4 .f32AddFloor (f32Mag c)) ∧
  round4 .exactHalfUp (f32Mag 0x3DFFFFFF) = some 0 ∧ round4 .f32AddFloor (f32Mag 0x3DFFFFFF) = some 1

/-- 41_temperature_codec.md R129: the round-trip laws (a) to (e) of the codec, under EXACT_HALF_UP. -/
def Obligations.RoundTripLawsOfTheCodec : Prop :=
  (∀ (c : Word) (j : Nat), j ≤ 1023 → f32Value c = some ((j : Int) * 2 ^ 147) →
    ∃ raw, tempEncode .exactHalfUp c = .ok raw ∧ f32Value (tempDecode raw) = f32Value c) ∧
  (∀ (c : Word) (v : Int), f32Value c = some v → 0 ≤ v → v < 2047 * 2 ^ 146 →
    ∃ (raw : Half) (q : Nat), tempEncode .exactHalfUp c = .ok raw ∧ round4 .exactHalfUp v.natAbs = some q ∧
      f32Value (tempDecode raw) = some ((q : Int) * 2 ^ 147) ∧
      (q : Int) * 2 ^ 147 - v ≤ 2 ^ 146 ∧ v - (q : Int) * 2 ^ 147 ≤ 2 ^ 146) ∧
  (∃ raw, tempEncode .exactHalfUp 0x80000000 = .ok raw ∧ tempDecode raw = 0x00000000) ∧
  (∀ (c : Word) (v : Int), f32Value c = some v → v < 0 → -(2047 * 2 ^ 146) < v →
    ∃ (raw : Half) (q : Nat), tempEncode .exactHalfUp c = .ok raw ∧ round4 .exactHalfUp v.natAbs = some q ∧
      f32Value (tempDecode raw) = some ((q : Int) * 2 ^ 147 - 256 * 2 ^ 149) ∧
      ((q : Int) * 2 ^ 147 - 256 * 2 ^ 149 = v ↔ v = -128 * 2 ^ 149)) ∧
  (∀ (c : Word) (v : Int), f32Value c = some v → 2047 * 2 ^ 146 ≤ v.natAbs → v.natAbs < 256 * 2 ^ 149 →
    tempEncode .exactHalfUp c = .ok 0x1000 ∧ f32Value (tempDecode 0x1000) = some (-256 * 2 ^ 149))

/-- 41_temperature_codec.md R130: the shape of what the encoder gives, under either setting of ENC_ROUNDING. -/
def Obligations.EncoderOutputShape : Prop :=
  ∀ (p : EncRounding) (c : Word) (raw : Half) (v : Int) (q : Nat),
    tempEncode p c = .ok raw → f32Value c = some v → round4 p v.natAbs = some q →
    raw &&& 0x0003 = 0 ∧
    (q ≤ 1023 → (0 ≤ v → raw &&& 0xF000 = 0) ∧ (v < 0 → raw &&& 0xF000 = 0x1000))

/-- 00_scope.md R8: a finite binary32 pattern is the pattern of its sign and magnitude, so `bits32` loses nothing. -/
def Obligations.FloatPatternIsThatOfItsValue : Prop :=
  ∀ c : Word, f32Finite c = true → f32OfMag (f32Sign c) (f32Mag c) = c

/-- 00_scope.md R8: `rnd32` gives a binary32 magnitude no other is nearer than, the even one of two as near; it
overflows exactly from half a unit above the greatest one. -/
def Obligations.RoundingIsToNearestTiesToEven : Prop :=
  ∀ n : Nat,
    (rnd32 n = none ↔ (2 ^ 25 - 1) * 2 ^ 103 * 2 ^ 149 ≤ n) ∧
    ∀ y, rnd32 n = some y →
      (∃ c : Word, f32Finite c = true ∧ f32Mag c = y) ∧
      ∀ c : Word, f32Finite c = true →
        ((n : Int) - y).natAbs ≤ ((n : Int) - f32Mag c).natAbs ∧
        (((n : Int) - y).natAbs = ((n : Int) - f32Mag c).natAbs → f32Mag c ≠ y → f32Frac (f32OfMag false y) % 2 = 0)
end

