-- ==== Sys2Proof/Laws/State.lean ====
section
/-! SUPPORT. Each field after each update of State: true by unfolding, so that no later proof unfolds an update. -/

namespace Sys2Proof.Machine

/-! ### Recording a bus event -/

@[simp] theorem State.bound_record (s : State) (e : BusEvent) : (s.record e).bound = s.bound := rfl
@[simp] theorem State.devAddr_record (s : State) (e : BusEvent) : (s.record e).devAddr = s.devAddr := rfl
@[simp] theorem State.status_record (s : State) (e : BusEvent) : (s.record e).status = s.status := rfl
@[simp] theorem State.statusValid_record (s : State) (e : BusEvent) : (s.record e).statusValid = s.statusValid := rfl
@[simp] theorem State.fault_record (s : State) (e : BusEvent) : (s.record e).fault = s.fault := rfl
@[simp] theorem State.port_record (s : State) (e : BusEvent) : (s.record e).port = s.port := rfl
@[simp] theorem State.results_record (s : State) (e : BusEvent) : (s.record e).results = s.results := rfl
@[simp] theorem State.busHistory_record (s : State) (e : BusEvent) : (s.record e).busHistory = s.busHistory ++ [e] := rfl
@[simp] theorem State.inputs_record (s : State) (e : BusEvent) : (s.record e).inputs = s.inputs := rfl
@[simp] theorem State.busScript_record (s : State) (e : BusEvent) : (s.record e).busScript = s.busScript := rfl
@[simp] theorem State.busDraws_record (s : State) (e : BusEvent) : (s.record e).busDraws = s.busDraws := rfl
@[simp] theorem State.params_record (s : State) (e : BusEvent) : (s.record e).params = s.params := rfl

/-! ### Using up one answer of the bus agent -/

@[simp] theorem State.bound_drawn (s : State) : s.drawn.bound = s.bound := rfl
@[simp] theorem State.devAddr_drawn (s : State) : s.drawn.devAddr = s.devAddr := rfl
@[simp] theorem State.status_drawn (s : State) : s.drawn.status = s.status := rfl
@[simp] theorem State.statusValid_drawn (s : State) : s.drawn.statusValid = s.statusValid := rfl
@[simp] theorem State.fault_drawn (s : State) : s.drawn.fault = s.fault := rfl
@[simp] theorem State.port_drawn (s : State) : s.drawn.port = s.port := rfl
@[simp] theorem State.results_drawn (s : State) : s.drawn.results = s.results := rfl
@[simp] theorem State.busHistory_drawn (s : State) : s.drawn.busHistory = s.busHistory := rfl
@[simp] theorem State.inputs_drawn (s : State) : s.drawn.inputs = s.inputs := rfl
@[simp] theorem State.busScript_drawn (s : State) : s.drawn.busScript = s.busScript.drop 1 := rfl
@[simp] theorem State.busDraws_drawn (s : State) : s.drawn.busDraws = s.busDraws + 1 := rfl
@[simp] theorem State.params_drawn (s : State) : s.drawn.params = s.params := rfl

/-! ### BIND's latch -/

@[simp] theorem State.bound_latchAddress (s : State) (a : Half) : (s.latchAddress a).bound = true := rfl
@[simp] theorem State.devAddr_latchAddress (s : State) (a : Half) : (s.latchAddress a).devAddr = lowByte a := rfl
@[simp] theorem State.status_latchAddress (s : State) (a : Half) : (s.latchAddress a).status = s.status := rfl
@[simp] theorem State.statusValid_latchAddress (s : State) (a : Half) : (s.latchAddress a).statusValid = s.statusValid := rfl
@[simp] theorem State.fault_latchAddress (s : State) (a : Half) : (s.latchAddress a).fault = s.fault := rfl
@[simp] theorem State.port_latchAddress (s : State) (a : Half) : (s.latchAddress a).port = s.port := rfl
@[simp] theorem State.results_latchAddress (s : State) (a : Half) : (s.latchAddress a).results = s.results := rfl
@[simp] theorem State.busHistory_latchAddress (s : State) (a : Half) : (s.latchAddress a).busHistory = s.busHistory := rfl
@[simp] theorem State.inputs_latchAddress (s : State) (a : Half) : (s.latchAddress a).inputs = s.inputs := rfl
@[simp] theorem State.busScript_latchAddress (s : State) (a : Half) : (s.latchAddress a).busScript = s.busScript := rfl
@[simp] theorem State.busDraws_latchAddress (s : State) (a : Half) : (s.latchAddress a).busDraws = s.busDraws := rfl
@[simp] theorem State.params_latchAddress (s : State) (a : Half) : (s.latchAddress a).params = s.params := rfl

/-! ### Capturing the status bits -/

@[simp] theorem State.bound_captureStatus (s : State) (st : BitVec 3) : (s.captureStatus st).bound = s.bound := rfl
@[simp] theorem State.devAddr_captureStatus (s : State) (st : BitVec 3) : (s.captureStatus st).devAddr = s.devAddr := rfl
@[simp] theorem State.status_captureStatus (s : State) (st : BitVec 3) : (s.captureStatus st).status = st := rfl
@[simp] theorem State.statusValid_captureStatus (s : State) (st : BitVec 3) : (s.captureStatus st).statusValid = true := rfl
@[simp] theorem State.fault_captureStatus (s : State) (st : BitVec 3) : (s.captureStatus st).fault = s.fault := rfl
@[simp] theorem State.port_captureStatus (s : State) (st : BitVec 3) : (s.captureStatus st).port = s.port := rfl
@[simp] theorem State.results_captureStatus (s : State) (st : BitVec 3) : (s.captureStatus st).results = s.results := rfl
@[simp] theorem State.busHistory_captureStatus (s : State) (st : BitVec 3) : (s.captureStatus st).busHistory = s.busHistory := rfl
@[simp] theorem State.inputs_captureStatus (s : State) (st : BitVec 3) : (s.captureStatus st).inputs = s.inputs := rfl
@[simp] theorem State.busScript_captureStatus (s : State) (st : BitVec 3) : (s.captureStatus st).busScript = s.busScript := rfl
@[simp] theorem State.busDraws_captureStatus (s : State) (st : BitVec 3) : (s.captureStatus st).busDraws = s.busDraws := rfl
@[simp] theorem State.params_captureStatus (s : State) (st : BitVec 3) : (s.captureStatus st).params = s.params := rfl

/-! ### The reset input: registers and observation at their reset values, the rest as before -/

@[simp] theorem State.bound_applyReset (s : State) : (applyReset s).bound = false := rfl
@[simp] theorem State.devAddr_applyReset (s : State) : (applyReset s).devAddr = 0 := rfl
@[simp] theorem State.status_applyReset (s : State) : (applyReset s).status = 0 := rfl
@[simp] theorem State.statusValid_applyReset (s : State) : (applyReset s).statusValid = false := rfl
@[simp] theorem State.fault_applyReset (s : State) : (applyReset s).fault = 0 := rfl
@[simp] theorem State.port_applyReset (s : State) : (applyReset s).port = none := rfl
@[simp] theorem State.results_applyReset (s : State) : (applyReset s).results = [] := rfl
@[simp] theorem State.busHistory_applyReset (s : State) : (applyReset s).busHistory = [] := rfl
@[simp] theorem State.inputs_applyReset (s : State) : (applyReset s).inputs = s.inputs := rfl
@[simp] theorem State.busScript_applyReset (s : State) : (applyReset s).busScript = s.busScript := rfl
@[simp] theorem State.busDraws_applyReset (s : State) : (applyReset s).busDraws = s.busDraws := rfl
@[simp] theorem State.params_applyReset (s : State) : (applyReset s).params = s.params := rfl

/-! ### Presenting a command -/

@[simp] theorem State.bound_present (w : Command) (s : State) : (present w s).bound = s.bound := rfl
@[simp] theorem State.devAddr_present (w : Command) (s : State) : (present w s).devAddr = s.devAddr := rfl
@[simp] theorem State.status_present (w : Command) (s : State) : (present w s).status = s.status := rfl
@[simp] theorem State.statusValid_present (w : Command) (s : State) : (present w s).statusValid = s.statusValid := rfl
@[simp] theorem State.fault_present (w : Command) (s : State) : (present w s).fault = s.fault := rfl
@[simp] theorem State.port_present (w : Command) (s : State) : (present w s).port = s.port := rfl
@[simp] theorem State.results_present (w : Command) (s : State) : (present w s).results = s.results := rfl
@[simp] theorem State.busHistory_present (w : Command) (s : State) : (present w s).busHistory = s.busHistory := rfl
@[simp] theorem State.inputs_present (w : Command) (s : State) : (present w s).inputs = .command w :: s.inputs := rfl
@[simp] theorem State.busScript_present (w : Command) (s : State) : (present w s).busScript = s.busScript := rfl
@[simp] theorem State.busDraws_present (w : Command) (s : State) : (present w s).busDraws = s.busDraws := rfl
@[simp] theorem State.params_present (w : Command) (s : State) : (present w s).params = s.params := rfl

end Sys2Proof.Machine
end

