-- ==== Sys2Proof/Laws/Bus.lean ====
section
/-! SUPPORT. What the bus sequences do, once: each is one equation in the bus agent's next answers. -/

namespace Sys2Proof.Machine

/-! ### The bus agent -/

@[simp] theorem State.answer_record (s : State) (e : BusEvent) (k : Nat) :
    (s.record e).answer k = s.answer k := rfl

@[simp] theorem State.answer_drawn (s : State) (k : Nat) : s.drawn.answer k = s.answer (k + 1) := by
  have h : s.busDraws + 1 + k = s.busDraws + (k + 1) := by omega
  simp [State.answer, h]

/-- The answers depend on the bus agent alone. -/
theorem State.answer_congr {s t : State} (hs : s.busScript = t.busScript) (hd : s.busDraws = t.busDraws)
    (k : Nat) : s.answer k = t.answer k := by
  unfold State.answer
  rw [hs, hd]

/-- A scripted answer is given as it stands. -/
theorem State.answer_of_script {s : State} {k : Nat} {a : Option Byte} (h : s.busScript[k]? = some a) :
    s.answer k = a := by
  simp [State.answer, h]

@[simp] theorem whenAnswered_some (b : Byte) (k : Byte → Out) : whenAnswered (some b) k = k b := rfl

@[simp] theorem whenAnswered_none (k : Byte → Out) : whenAnswered none k = .fault .busNeverAnswers := rfl

/-- A command that waits for an answer and goes on has been given one. -/
theorem whenAnswered_next {a : Option Byte} {k : Byte → Out} {t : State} (h : whenAnswered a k = .next t) :
    ∃ b, a = some b ∧ k b = .next t := by
  cases a with
  | none => cases h
  | some b => exact ⟨b, rfl, h⟩

/-! ### The state after a bus sequence -/

/-- `s` after the events `ev` and `n` answers of the bus agent. -/
def State.afterBus (s : State) (ev : List BusEvent) (n : Nat) : State :=
  { s with busHistory := s.busHistory ++ ev, busScript := s.busScript.drop n, busDraws := s.busDraws + n }

theorem State.record_afterBus (s : State) (ev : List BusEvent) (n : Nat) (e : BusEvent) :
    (s.afterBus ev n).record e = s.afterBus (ev ++ [e]) n := by
  simp [State.afterBus, State.record]

theorem State.drawn_afterBus (s : State) (ev : List BusEvent) (n : Nat) :
    (s.afterBus ev n).drawn = s.afterBus ev (n + 1) := by
  simp [State.afterBus, State.drawn, Nat.add_assoc]

theorem State.answer_afterBus (s : State) (ev : List BusEvent) (n k : Nat) :
    (s.afterBus ev n).answer k = s.answer (n + k) := by
  simp [State.afterBus, State.answer, Nat.add_assoc]

theorem State.busAddr_afterBus (s : State) (ev : List BusEvent) (n : Nat) :
    (s.afterBus ev n).busAddr = s.busAddr := rfl

theorem State.afterBus_nil (s : State) : s.afterBus [] 0 = s := by
  simp [State.afterBus]

/-! ### The primitives, on a state some events into a sequence -/

theorem busBegin_afterBus (s : State) (ev : List BusEvent) (n : Nat) :
    busBegin (s.afterBus ev n) = s.afterBus (ev ++ [.beginAt s.busAddr]) n := by
  rw [busBegin, State.record_afterBus, State.busAddr_afterBus]

theorem busWrite_afterBus (s : State) (ev : List BusEvent) (n : Nat) (b : Byte) :
    busWrite b (s.afterBus ev n) = s.afterBus (ev ++ [.write b]) n := by
  rw [busWrite, State.record_afterBus]

theorem busRequest_afterBus (s : State) (ev : List BusEvent) (n m : Nat) :
    busRequest m (s.afterBus ev n) = s.afterBus (ev ++ [.request s.busAddr m]) n := by
  rw [busRequest, State.record_afterBus, State.busAddr_afterBus]

theorem busEnd_afterBus (s : State) (ev : List BusEvent) (n : Nat) (k : Byte → State → Out) :
    busEnd (s.afterBus ev n) k =
      whenAnswered (s.answer n) fun st => k st (s.afterBus (ev ++ [.ended st]) (n + 1)) := by
  simp only [busEnd, awaitAnswer, State.answer_afterBus, State.drawn_afterBus, State.record_afterBus, Nat.add_zero]

theorem busRead_afterBus (s : State) (ev : List BusEvent) (n : Nat) (k : Byte → State → Out) :
    busRead (s.afterBus ev n) k =
      whenAnswered (s.answer n) fun b => k b (s.afterBus (ev ++ [.read b]) (n + 1)) := by
  simp only [busRead, awaitAnswer, State.answer_afterBus, State.drawn_afterBus, State.record_afterBus, Nat.add_zero]

/-! ### The sequences -/

/-- All that RD8's read can do (20_memory.md R47). -/
theorem readReg8_eq (reg : Byte) (s : State) (k : Byte → State → Out) :
    readReg8 reg s k =
      whenAnswered (s.answer 0) fun st => whenAnswered (s.answer 1) fun b0 =>
        k b0 (s.afterBus [.beginAt s.busAddr, .write reg, .ended st, .request s.busAddr 1, .read b0] 2) := by
  rw [readReg8, ← State.afterBus_nil s, busBegin_afterBus, busWrite_afterBus, busEnd_afterBus]
  simp only [busRequest_afterBus, busRead_afterBus, State.afterBus_nil, List.nil_append, List.cons_append]

/-- All that RD16's read can do (20_memory.md R44, R47). -/
theorem readReg16_eq (reg : Byte) (s : State) (k : Half → State → Out) :
    readReg16 reg s k =
      whenAnswered (s.answer 0) fun st => whenAnswered (s.answer 1) fun b0 => whenAnswered (s.answer 2) fun b1 =>
        k (unpack16 b0 b1)
          (s.afterBus [.beginAt s.busAddr, .write reg, .ended st, .request s.busAddr 2, .read b0, .read b1] 3) := by
  rw [readReg16, ← State.afterBus_nil s, busBegin_afterBus, busWrite_afterBus, busEnd_afterBus]
  simp only [busRequest_afterBus, busRead_afterBus, State.afterBus_nil, List.nil_append, List.cons_append]

/-- All that an 8-bit write can do (20_memory.md R48). -/
theorem writeReg8_eq (reg v : Byte) (s : State) (k : State → Out) :
    writeReg8 reg v s k =
      whenAnswered (s.answer 0) fun st =>
        k (s.afterBus [.beginAt s.busAddr, .write reg, .write v, .ended st] 1) := by
  rw [writeReg8, ← State.afterBus_nil s, busBegin_afterBus, busWrite_afterBus, busWrite_afterBus, busEnd_afterBus]
  simp only [State.afterBus_nil, List.nil_append, List.cons_append]

/-- All that a 16-bit write can do (20_memory.md R45, R48). -/
theorem writeReg16_eq (reg : Byte) (v : Half) (s : State) (k : State → Out) :
    writeReg16 reg v s k =
      whenAnswered (s.answer 0) fun st =>
        k (s.afterBus [.beginAt s.busAddr, .write reg, .write (highByte v), .write (lowByte v), .ended st] 1) := by
  rw [writeReg16, ← State.afterBus_nil s, busBegin_afterBus, busWrite_afterBus, busWrite_afterBus,
    busWrite_afterBus, busEnd_afterBus]
  simp only [State.afterBus_nil, List.nil_append, List.cons_append]

/-- All that the probe can do (20_memory.md R49). -/
theorem probeBus_eq (s : State) (k : Byte → State → Out) :
    probeBus s k =
      whenAnswered (s.answer 0) fun st => k st (s.afterBus [.beginAt s.busAddr, .ended st] 1) := by
  rw [probeBus, ← State.afterBus_nil s, busBegin_afterBus, busEnd_afterBus]
  simp only [State.afterBus_nil, List.nil_append, List.cons_append]

end Sys2Proof.Machine
end

