-- ==== Sys2Proof/Laws/Float.lean ====
section
/-! SUPPORT. binary32 (00_scope.md R8): the fields of a packed pattern, the magnitudes binary32 represents, and that
`f32OfMag` and `rnd32` are exact on them. -/

namespace Sys2Proof.Machine

/-! ### The fields of a packed pattern -/

@[simp] theorem f32Sign_f32Bits (neg : Bool) (e : BitVec 8) (f : BitVec 23) :
    f32Sign (f32Bits neg e f) = neg := by
  simp only [f32Sign, f32Bits, BitVec.msb_eq_getLsbD_last]
  cases neg <;> simp

@[simp] theorem f32Exp_f32Bits (neg : Bool) (e : BitVec 8) (f : BitVec 23) :
    f32Exp (f32Bits neg e f) = e.toNat := by
  rw [f32Exp]
  congr 1
  apply BitVec.eq_of_getLsbD_eq
  intro j hj
  simp only [f32Bits]
  interval_cases j <;> simp

@[simp] theorem f32Frac_f32Bits (neg : Bool) (e : BitVec 8) (f : BitVec 23) :
    f32Frac (f32Bits neg e f) = f.toNat := by
  rw [f32Frac]
  congr 1
  apply BitVec.eq_of_getLsbD_eq
  intro j hj
  simp only [f32Bits]
  interval_cases j <;> simp

theorem f32Exp_lt (c : Word) : f32Exp c < 256 := (c.extractLsb' 23 8).isLt

theorem f32Frac_lt (c : Word) : f32Frac c < 2 ^ 23 := (c.extractLsb' 0 23).isLt

/-! ### The magnitudes binary32 represents -/

/-- At most 24 significant bits, and below 2^128. -/
def f32Representable (n : Nat) : Prop := n % 2 ^ (n.log2 - 23) = 0 ∧ n < f32Overflow

theorem log2_lt_of_lt {n k : Nat} (hk : 0 < k) (h : n < 2 ^ k) : n.log2 < k := by
  by_cases hn : n = 0
  · subst hn
    simpa using hk
  · exact (Nat.log2_lt hn).mpr h

/-- A number below 2^23 is a subnormal magnitude; any other has a log of at least 23. -/
theorem le_log2_of_le {n k : Nat} (h : 2 ^ k ≤ n) : k ≤ n.log2 := by
  have hn : n ≠ 0 := by
    have := Nat.two_pow_pos k
    omega
  exact (Nat.le_log2 hn).mpr h

/-- Every number below 2^24 is a magnitude of binary32. -/
theorem f32Representable_of_lt {n : Nat} (h : n < 2 ^ 24) : f32Representable n := by
  have hl : n.log2 < 24 := log2_lt_of_lt (by omega) h
  have h0 : n.log2 - 23 = 0 := by omega
  refine ⟨by rw [h0]; simp [Nat.mod_one], ?_⟩
  simp only [f32Overflow]
  omega

/-- The significand of a magnitude in the normal range is 2^23 to 2^24 - 1. -/
theorem significand_bounds {n : Nat} (h : 2 ^ 23 ≤ n) :
    2 ^ 23 ≤ n / 2 ^ (n.log2 - 23) ∧ n / 2 ^ (n.log2 - 23) < 2 ^ 24 := by
  have hl : 23 ≤ n.log2 := le_log2_of_le h
  have hn : n ≠ 0 := by omega
  have h1 : 2 ^ n.log2 ≤ n := Nat.log2_self_le hn
  have h2 : n < 2 ^ (n.log2 + 1) := Nat.lt_log2_self
  have hp : 0 < 2 ^ (n.log2 - 23) := Nat.two_pow_pos _
  have e1 : 2 ^ n.log2 = 2 ^ 23 * 2 ^ (n.log2 - 23) := by rw [← Nat.pow_add]; congr 1; omega
  have e2 : 2 ^ (n.log2 + 1) = 2 ^ 24 * 2 ^ (n.log2 - 23) := by rw [← Nat.pow_add]; congr 1; omega
  constructor
  · rw [Nat.le_div_iff_mul_le hp]
    omega
  · rw [Nat.div_lt_iff_lt_mul hp]
    omega

/-- The exponent of a magnitude below 2^128 is that of a finite value. -/
theorem log2_le_of_lt_overflow {n : Nat} (h : n < f32Overflow) : n.log2 ≤ 276 := by
  have h' : n < 2 ^ (128 + 149) := by
    rw [Nat.pow_add]
    exact h
  have := log2_lt_of_lt (by omega) h'
  omega

/-! ### `f32OfMag` is exact -/

@[simp] theorem f32Sign_f32OfMag (neg : Bool) (n : Nat) : f32Sign (f32OfMag neg n) = neg := by
  rw [f32OfMag]
  split <;> simp

/-- A represented magnitude is the magnitude of its pattern. -/
theorem f32Mag_f32OfMag (neg : Bool) {n : Nat} (h : f32Representable n) : f32Mag (f32OfMag neg n) = n := by
  rw [f32OfMag]
  split
  case isTrue hn =>
    simp only [f32Mag, f32Exp_f32Bits, f32Frac_f32Bits, BitVec.toNat_ofNat, Nat.mod_eq_of_lt hn]
    rfl
  case isFalse hn =>
    have hn : 2 ^ 23 ≤ n := by omega
    have hl := log2_le_of_lt_overflow h.2
    have hq := significand_bounds hn
    have he : n.log2 - 23 + 1 < 2 ^ 8 := by omega
    simp only [f32Mag, f32Exp_f32Bits, f32Frac_f32Bits, BitVec.toNat_ofNat, Nat.mod_eq_of_lt he]
    have hf : n / 2 ^ (n.log2 - 23) % 2 ^ 23 = n / 2 ^ (n.log2 - 23) - 2 ^ 23 := by
      rw [Nat.mod_eq_sub_mod hq.1]
      exact Nat.mod_eq_of_lt (by omega)
    rw [hf, if_neg (by omega), Nat.add_sub_cancel, Nat.add_sub_cancel' hq.1]
    have hd := Nat.div_add_mod n (2 ^ (n.log2 - 23))
    rw [h.1, Nat.add_zero] at hd
    rw [Nat.mul_comm]
    exact hd

/-- Its pattern is finite. -/
theorem f32Finite_f32OfMag (neg : Bool) {n : Nat} (h : f32Representable n) :
    f32Finite (f32OfMag neg n) = true := by
  have hl := log2_le_of_lt_overflow h.2
  rw [f32OfMag]
  split
  · simp [f32Finite]
  · have he : n.log2 - 23 + 1 < 2 ^ 8 := by omega
    simp only [f32Finite, f32Exp_f32Bits, BitVec.toNat_ofNat, Nat.mod_eq_of_lt he, bne_iff_ne]
    omega

/-- `bits32(f32(t))` has the value `t`, for every `t` that binary32 represents. -/
theorem f32Value_f32OfValue {t : Int} (h : f32Representable t.natAbs) : f32Value (f32OfValue t) = some t := by
  simp only [f32Value, f32OfValue, f32Finite_f32OfMag _ h, f32Sign_f32OfMag, f32Mag_f32OfMag _ h, if_true]
  congr 1
  by_cases ht : t < 0
  · rw [if_pos (decide_eq_true ht)]
    omega
  · rw [if_neg (by simp [ht])]
    omega

/-! ### `rnd32` is exact on what binary32 represents -/

theorem roundSignificand_exact {n : Nat} (h : f32Representable n) : roundSignificand n = n := by
  have hp : 0 < 2 ^ (n.log2 - 23) := Nat.two_pow_pos _
  have hd := Nat.div_add_mod n (2 ^ (n.log2 - 23))
  rw [h.1, Nat.add_zero, Nat.mul_comm] at hd
  simp only [roundSignificand, h.1]
  rw [if_neg (by omega)]
  exact hd

theorem rnd32_exact {n : Nat} (h : f32Representable n) : rnd32 n = some n := by
  rw [rnd32, roundSignificand_exact h, if_pos h.2]

/-- A magnitude in whole units of `2^k`, small enough for 24 significant bits, is represented. -/
theorem f32Representable_mul {m k : Nat} (hm : m < 2 ^ 24) (hk : m * 2 ^ k < f32Overflow) :
    f32Representable (m * 2 ^ k) := by
  refine ⟨?_, hk⟩
  apply Nat.mod_eq_zero_of_dvd
  apply Dvd.dvd.mul_left
  apply Nat.pow_dvd_pow
  have h : m * 2 ^ k < 2 ^ (24 + k) := by
    rw [Nat.pow_add]
    exact Nat.mul_lt_mul_of_pos_right hm (Nat.two_pow_pos k)
  have := log2_lt_of_lt (by omega) h
  omega

/-- Every finite pattern has a magnitude binary32 represents. -/
theorem f32Representable_f32Mag {c : Word} (h : f32Finite c = true) : f32Representable (f32Mag c) := by
  have hf := f32Frac_lt c
  have he : f32Exp c ≤ 254 := by
    have h1 := f32Exp_lt c
    have h2 : f32Exp c ≠ 255 := by simpa [f32Finite] using h
    omega
  rw [f32Mag]
  split
  · exact f32Representable_of_lt (by omega)
  · refine f32Representable_mul (by omega) ?_
    calc (2 ^ 23 + f32Frac c) * 2 ^ (f32Exp c - 1)
        < 2 ^ 24 * 2 ^ (f32Exp c - 1) := Nat.mul_lt_mul_of_pos_right (by omega) (Nat.two_pow_pos _)
      _ ≤ 2 ^ 24 * 2 ^ 253 := Nat.mul_le_mul_left _ (Nat.pow_le_pow_right (by omega) (by omega))
      _ = f32Overflow := by simp only [f32Overflow]; norm_num

/-! ### Rounding is between neighbours -/

theorem log2_eq_of_bounds {n k : Nat} (h1 : 2 ^ k ≤ n) (h2 : n < 2 ^ (k + 1)) : n.log2 = k := by
  have := le_log2_of_le h1
  have := log2_lt_of_lt (by omega) h2
  omega

/-- `n` lies in an interval of two neighbouring multiples of its last significant place, and rounding gives an end of it. -/
theorem roundSignificand_cases (n : Nat) :
    let u := 2 ^ (n.log2 - 23)
    let q := n / u
    (roundSignificand n = q * u ∧ 2 * (n % u) ≤ u ∧ (2 * (n % u) = u → q % 2 = 0)) ∨
    (roundSignificand n = (q + 1) * u ∧ u ≤ 2 * (n % u) ∧ (2 * (n % u) = u → q % 2 = 1)) := by
  simp only [roundSignificand]
  split
  · right; refine ⟨rfl, by omega, by omega⟩
  · left; refine ⟨rfl, by omega, by omega⟩

/-- No represented magnitude lies strictly between those neighbours. -/
theorem no_representable_between {n M : Nat} (hM : f32Representable M)
    (h1 : n / 2 ^ (n.log2 - 23) * 2 ^ (n.log2 - 23) < M)
    (h2 : M < (n / 2 ^ (n.log2 - 23) + 1) * 2 ^ (n.log2 - 23)) : False := by
  by_cases hn : n < 2 ^ 24
  · have h0 : n.log2 - 23 = 0 := by
      have := log2_lt_of_lt (by omega) hn
      omega
    rw [h0] at h1 h2
    simp at h1 h2
    omega
  · have hq := significand_bounds (n := n) (by omega)
    have hl : 24 ≤ n.log2 := le_log2_of_le (by omega)
    set sh := n.log2 - 23 with hsh
    set u := 2 ^ sh with hu
    have hup : 0 < u := Nat.two_pow_pos _
    have e1 : 2 ^ (23 + sh) = 2 ^ 23 * u := Nat.pow_add ..
    have e2 : 2 ^ (23 + sh + 1) = 2 ^ 24 * u := by rw [show 23 + sh + 1 = 24 + sh by omega, Nat.pow_add]
    have hlo : 2 ^ 23 * u ≤ n / u * u := Nat.mul_le_mul_right _ hq.1
    have hhi : (n / u + 1) * u ≤ 2 ^ 24 * u := Nat.mul_le_mul_right _ hq.2
    have hML : M.log2 = 23 + sh := log2_eq_of_bounds (by omega) (by omega)
    have hd := hM.1
    rw [hML, Nat.add_sub_cancel_left] at hd
    obtain ⟨k, hk⟩ := Nat.dvd_of_mod_eq_zero hd
    rw [← hu, Nat.mul_comm] at hk
    subst hk
    have a := Nat.lt_of_mul_lt_mul_right h1
    have b := Nat.lt_of_mul_lt_mul_right h2
    omega

/-- Rounding does not pass a represented magnitude, upwards. -/
theorem roundSignificand_le {n M : Nat} (hM : f32Representable M) (h : n ≤ M) : roundSignificand n ≤ M := by
  have hd := Nat.div_add_mod n (2 ^ (n.log2 - 23))
  have hup : 0 < 2 ^ (n.log2 - 23) := Nat.two_pow_pos _
  have hm := Nat.mod_lt n hup
  rw [Nat.mul_comm] at hd
  rcases roundSignificand_cases n with ⟨e, -, -⟩ | ⟨e, hr, -⟩
  · rw [e]; omega
  · rw [e]
    by_contra hc
    refine no_representable_between hM ?_ (Nat.lt_of_not_le hc)
    have : 0 < n % 2 ^ (n.log2 - 23) := by omega
    omega

/-- Rounding does not pass a represented magnitude, downwards. -/
theorem le_roundSignificand {n M : Nat} (hM : f32Representable M) (h : M ≤ n) : M ≤ roundSignificand n := by
  have hd := Nat.div_add_mod n (2 ^ (n.log2 - 23))
  have hup : 0 < 2 ^ (n.log2 - 23) := Nat.two_pow_pos _
  have hm := Nat.mod_lt n hup
  rw [Nat.mul_comm] at hd
  rw [Nat.add_comm] at hd
  have hs : (n / 2 ^ (n.log2 - 23) + 1) * 2 ^ (n.log2 - 23) = n / 2 ^ (n.log2 - 23) * 2 ^ (n.log2 - 23) + 2 ^ (n.log2 - 23) := by
    rw [Nat.add_mul, Nat.one_mul]
  rcases roundSignificand_cases n with ⟨e, hr, -⟩ | ⟨e, -, -⟩
  · rw [e]
    by_contra hc
    exact no_representable_between hM (Nat.lt_of_not_le hc) (by omega)
  · rw [e]; omega

end Sys2Proof.Machine
end

