-- ==== Sys2Proof/Laws/Codec.lean ====
section
/-! SUPPORT. The codec (41_temperature_codec.md): the value of TempDecode, where Round4 stays below 16384, and all that
TempEncode can do. -/

namespace Sys2Proof.Machine

/-! ### The decoder -/

theorem magMask_toNat (raw : Half) : (raw &&& Config.magMask).toNat = (raw.setWidth 12).toNat := by
  have h : raw &&& Config.magMask = (raw.setWidth 12).setWidth 16 := by
    apply BitVec.eq_of_getLsbD_eq
    intro j hj
    interval_cases j <;> simp [Config.magMask]
  rw [h]
  simp
  omega

theorem signBit_iff (raw : Half) : raw &&& Config.signBit ≠ 0 ↔ raw.getLsbD 12 = true := by
  constructor
  · intro h
    by_contra hc
    apply h
    apply BitVec.eq_of_getLsbD_eq
    intro j hj
    interval_cases j <;> simp_all [Config.signBit]
  · intro h hc
    have hb := congrArg (fun x => BitVec.getLsbD x 12) hc
    rw [BitVec.getLsbD_eq_getElem (by omega)] at h
    simp [Config.signBit, h] at hb

/-- The exact value is a whole number of sixteenths, -4096 to 4095, negative exactly where bit 12 is set (R120). -/
theorem tempValue_cases (raw : Half) :
    (raw.getLsbD 12 = true ∧ tempValue raw = ((raw.setWidth 12).toNat : Int) * 2 ^ 145 - 256 * 2 ^ 149) ∨
    (raw.getLsbD 12 = false ∧ tempValue raw = ((raw.setWidth 12).toNat : Int) * 2 ^ 145) := by
  rw [tempValue, magMask_toNat]
  by_cases h : raw.getLsbD 12 = true
  · left
    rw [if_pos ((signBit_iff raw).2 h)]
    exact ⟨h, by simp [Config.tempLsb, Config.tempNegBias]⟩
  · right
    rw [if_neg (fun h' => h ((signBit_iff raw).1 h'))]
    exact ⟨by simpa using h, by simp [Config.tempLsb]⟩

/-- A magnitude of fewer than 2^24 sixteenths is represented. -/
theorem f32Representable_sixteenths {j : Nat} (h : j < 2 ^ 24) : f32Representable (j * 2 ^ 145) :=
  f32Representable_mul h (by simp only [f32Overflow]; omega)

/-- The decoder's float has exactly the value of R120. -/
theorem f32Value_tempDecode (raw : Half) : f32Value (tempDecode raw) = some (tempValue raw) := by
  have hk := (raw.setWidth 12).isLt
  apply f32Value_f32OfValue
  rcases tempValue_cases raw with ⟨-, h⟩ | ⟨-, h⟩
  · have hn : (tempValue raw).natAbs = (4096 - (raw.setWidth 12).toNat) * 2 ^ 145 := by rw [h]; omega
    rw [hn]
    exact f32Representable_sixteenths (by omega)
  · have hn : (tempValue raw).natAbs = (raw.setWidth 12).toNat * 2 ^ 145 := by rw [h]; omega
    rw [hn]
    exact f32Representable_sixteenths (by omega)

/-! ### Rounding -/

theorem rnd32_eq_some {n y : Nat} (h : rnd32 n = some y) : y = roundSignificand n ∧ y < f32Overflow := by
  unfold rnd32 at h
  split at h
  case isTrue hlt =>
    cases h
    exact ⟨rfl, hlt⟩
  case isFalse => cases h

/-- Rounding does not overflow, nor pass a represented magnitude that is at least as large. -/
theorem rnd32_le {n m : Nat} (hm : f32Representable m) (h : n ≤ m) : ∃ y, rnd32 n = some y ∧ y ≤ m := by
  have hle := roundSignificand_le hm h
  exact ⟨roundSignificand n, if_pos (Nat.lt_of_le_of_lt hle hm.2), hle⟩

/-- Rounding does not pass a represented magnitude that is at most as large. -/
theorem le_rnd32 {n m y : Nat} (hm : f32Representable m) (h : m ≤ n) (hy : rnd32 n = some y) : m ≤ y := by
  rw [(rnd32_eq_some hy).1]
  exact le_roundSignificand hm h

/-- Four times a represented magnitude is represented, unless it overflows (R126). -/
theorem f32Representable_four_mul {m : Nat} (h : f32Representable m) (hb : 4 * m < f32Overflow) :
    f32Representable (4 * m) := by
  refine ⟨?_, hb⟩
  by_cases h0 : m = 0
  · subst h0
    simp
  have a := Nat.log2_self_le h0
  have b := Nat.lt_log2_self (n := m)
  have hl : (4 * m).log2 = m.log2 + 2 := by
    apply log2_eq_of_bounds
    · rw [Nat.pow_add]
      omega
    · rw [show m.log2 + 2 + 1 = (m.log2 + 1) + 2 by omega, Nat.pow_add]
      omega
  rw [hl]
  apply Nat.mod_eq_zero_of_dvd
  by_cases h23 : 23 ≤ m.log2
  · rw [show m.log2 + 2 - 23 = 2 + (m.log2 - 23) by omega, Nat.pow_add]
    exact Nat.mul_dvd_mul (dvd_refl _) (Nat.dvd_of_mod_eq_zero h.1)
  · have hd : 2 ^ (m.log2 + 2 - 23) ∣ 2 ^ 2 := Nat.pow_dvd_pow 2 (by omega)
    exact Dvd.dvd.mul_right hd _

/-! ### Round4 -/

theorem round4_exactHalfUp (m : Nat) : round4 .exactHalfUp m = some ((4 * m + 2 ^ 148) / 2 ^ 149) := rfl

theorem round4_f32AddFloor_iff {m q : Nat} :
    round4 .f32AddFloor m = some q ↔
      ∃ x y, scaledUp m = some x ∧ halfAdded x = some y ∧ floorUnits y = q := by
  simp only [round4, Option.map_eq_some_iff, Option.bind_eq_some_iff]
  constructor
  · rintro ⟨y, ⟨x, hx, hy⟩, h⟩
    exact ⟨x, y, hx, hy, h⟩
  · rintro ⟨x, y, hx, hy, h⟩
    exact ⟨y, ⟨x, hx, hy⟩, h⟩

/-- `rnd32(4*m)` is exact unless it overflows (R126). -/
theorem scaledUp_exact {m : Nat} (h : f32Representable m) (hb : 4 * m < f32Overflow) : scaledUp m = some (4 * m) :=
  rnd32_exact (f32Representable_four_mul h hb)

theorem floorUnits_le {n q : Nat} (h : n < (q + 1) * 2 ^ 149) : floorUnits n ≤ q :=
  Nat.le_of_lt_succ ((Nat.div_lt_iff_lt_mul (Nat.two_pow_pos 149)).2 h)

theorem le_floorUnits {n q : Nat} (h : q * 2 ^ 149 ≤ n) : q ≤ floorUnits n :=
  (Nat.le_div_iff_mul_le (Nat.two_pow_pos 149)).2 h

/-- A represented magnitude below 4095.875 is at most 4095.875 less the last place of 4095 (R127). -/
theorem below_limit {m : Nat} (hm : f32Representable (4 * m)) (h : m < 32767 * 2 ^ 146) :
    4 * m + f32Half ≤ (2 ^ 24 - 1) * 2 ^ 139 := by
  simp only [f32Half]
  by_cases hc : 4 * m < 2 ^ 162
  · omega
  · have hl : (4 * m).log2 = 162 := log2_eq_of_bounds (by omega) (by omega)
    have hd := hm.1
    rw [hl] at hd
    omega

/-- Below 4095.875, Round4 is at most 16383 under either setting, so EncodeRange is not raised. -/
theorem round4_of_lt (p : EncRounding) {m : Nat} (hm : f32Representable m) (h : m < 32767 * 2 ^ 146) :
    ∃ q, round4 p m = some q ∧ q ≤ 16383 := by
  cases p with
  | exactHalfUp =>
    refine ⟨_, rfl, floorUnits_le ?_⟩
    simp only [Config.encPreScale, f32Half]
    omega
  | f32AddFloor =>
    have hb : 4 * m < f32Overflow := by
      simp only [f32Overflow]
      omega
    have hr : f32Representable ((2 ^ 24 - 1) * 2 ^ 139) :=
      f32Representable_mul (by omega) (by simp only [f32Overflow]; omega)
    obtain ⟨y, hy, hle⟩ := rnd32_le hr (below_limit (f32Representable_four_mul hm hb) h)
    exact ⟨floorUnits y, round4_f32AddFloor_iff.2 ⟨4 * m, y, scaledUp_exact hm hb, hy, rfl⟩, floorUnits_le (by omega)⟩

/-- From 4095.875, Round4 is 16384 or more, or overflows, so EncodeRange is raised. -/
theorem round4_of_ge (p : EncRounding) {m q : Nat} (h : 32767 * 2 ^ 146 ≤ m) (hq : round4 p m = some q) :
    16384 ≤ q := by
  cases p with
  | exactHalfUp =>
    cases hq
    apply le_floorUnits
    simp only [Config.encPreScale, f32Half]
    omega
  | f32AddFloor =>
    obtain ⟨x, y, hx, hy, rfl⟩ := round4_f32AddFloor_iff.1 hq
    have h1 : f32Representable (32767 * 2 ^ 148) :=
      f32Representable_mul (by omega) (by simp only [f32Overflow]; omega)
    have h2 : f32Representable (16384 * 2 ^ 149) :=
      f32Representable_mul (by omega) (by simp only [f32Overflow]; omega)
    have hx' : 32767 * 2 ^ 148 ≤ x := le_rnd32 h1 (by simp only [Config.encPreScale]; omega) hx
    exact le_floorUnits (le_rnd32 h2 (by simp only [f32Half]; omega) hy)

/-! ### The encoder -/

theorem f32Value_eq_none {c : Word} : f32Value c = none ↔ f32Finite c = false := by
  unfold f32Value
  split <;> simp_all

/-- Magnitude and sign of a finite value; -0.0 is not negative (R8). -/
theorem f32Value_eq_some {c : Word} {v : Int} (h : f32Value c = some v) :
    f32Finite c = true ∧ f32Mag c = v.natAbs ∧ (f32Negative c = true ↔ v < 0) := by
  unfold f32Value at h
  split at h
  case isTrue hf =>
    have hv : v = if f32Sign c then -(f32Mag c : Int) else (f32Mag c : Int) := (Option.some.inj h).symm
    rw [f32Negative, Bool.and_eq_true, bne_iff_ne]
    cases hs : f32Sign c <;> rw [hs] at hv <;> simp at hv ⊢ <;> refine ⟨hf, ?_, ?_⟩ <;> omega
  case isFalse => cases h

/-- All that TempEncode can do (R125, R127): a NaN or an infinity, 4095.875 or more in magnitude, or a raw value. -/
theorem tempEncode_cases (p : EncRounding) (c : Word) :
    (f32Value c = none ∧ tempEncode p c = .error .encodeNonFinite) ∨
    (∃ v, f32Value c = some v ∧ 32767 * 2 ^ 146 ≤ v.natAbs ∧ tempEncode p c = .error .encodeRange) ∨
    (∃ v q, f32Value c = some v ∧ v.natAbs < 32767 * 2 ^ 146 ∧ round4 p v.natAbs = some q ∧ q ≤ 16383 ∧
      tempEncode p c =
        .ok (if v < 0 then BitVec.ofNat 16 (q * 4) ||| Config.signBit else BitVec.ofNat 16 (q * 4))) := by
  cases hv : f32Value c with
  | none => exact .inl ⟨rfl, by simp [tempEncode, f32Value_eq_none.1 hv]⟩
  | some v =>
    obtain ⟨hf, hm, hn⟩ := f32Value_eq_some hv
    have hr := f32Representable_f32Mag hf
    rw [hm] at hr
    by_cases hl : v.natAbs < 32767 * 2 ^ 146
    · obtain ⟨q, hq, hq'⟩ := round4_of_lt p hr hl
      refine .inr (.inr ⟨v, q, rfl, hl, hq, hq', ?_⟩)
      have hp : ¬ 0xFFFF < q * Config.encPostScale := Nat.not_lt.2 (Nat.mul_le_mul_right 4 hq' |>.trans (by omega))
      simp only [tempEncode, hf, hm, hq, if_true, if_neg hp]
      by_cases h0 : v < 0
      · rw [if_pos (hn.2 h0), if_pos h0]
        rfl
      · rw [if_neg (fun h => h0 (hn.1 h)), if_neg h0]
        rfl
    · refine .inr (.inl ⟨v, rfl, Nat.le_of_not_lt hl, ?_⟩)
      simp only [tempEncode, hf, hm, if_true]
      cases hq : round4 p v.natAbs with
      | none => rfl
      | some q =>
        have hq' := round4_of_ge p (Nat.le_of_not_lt hl) hq
        exact if_pos (Nat.lt_of_lt_of_le (by omega) (Nat.mul_le_mul_right 4 hq'))

end Sys2Proof.Machine
end

