-- ==== Sys2Proof/Laws/Config.lean ====
section
/-! SUPPORT. The model's types and numerals are the values of 00_scope.md R7: the widths of Word.lean, the fields of
binary32 in Machine/Float.lean, the scales of the codec. -/

namespace Sys2Proof

/-! ### Widths -/

theorem byte_eq_regAddrWidth : Byte = BitVec Config.regAddrWidth := rfl

theorem half_eq_dataWidth : Half = BitVec Config.dataWidth := rfl

theorem word_eq_cmdWidth : Word = BitVec Config.cmdWidth := rfl

theorem word_eq_fopWidth : Word = BitVec Config.fopWidth := rfl

/-- The valid addresses are 0 to REG_MAX. -/
theorem regCount_eq : Config.regCount = Config.regMax.toNat + 1 := rfl

/-- As many valid bus addresses as devices on one bus. -/
theorem devicesPerBus_eq : Config.devicesPerBus = Config.devAddrMax - Config.devAddrMin + 1 := rfl

namespace Machine

/-! ### FLOAT_FORMAT -/

/-- The fields and a sign bit fill FOP. -/
theorem floatFormat_width :
    1 + Config.floatFormat.expBits + Config.floatFormat.fracBits = Config.fopWidth := rfl

theorem f32Sign_eq_field (c : Word) :
    f32Sign c = c.getLsbD (Config.floatFormat.expBits + Config.floatFormat.fracBits) :=
  BitVec.msb_eq_getLsbD_last c

theorem f32Exp_eq_field (c : Word) :
    f32Exp c = (c.extractLsb' Config.floatFormat.fracBits Config.floatFormat.expBits).toNat := rfl

theorem f32Frac_eq_field (c : Word) : f32Frac c = (c.extractLsb' 0 Config.floatFormat.fracBits).toNat := rfl

/-- The exponent field of a NaN or an infinity is all ones. -/
theorem f32Finite_iff_field (c : Word) :
    f32Finite c = true ↔ f32Exp c ≠ 2 ^ Config.floatFormat.expBits - 1 := bne_iff_ne

/-- The unit of magnitudes is the least subnormal: 1.0 is 2^(bias - 1 + fracBits) of them. -/
theorem f32One_eq_format :
    f32One = 2 ^ (Config.floatFormat.bias - 1 + Config.floatFormat.fracBits) := rfl

/-- A magnitude, scaled by the format's own bias and hidden bit. -/
theorem f32Mag_eq_format (c : Word) :
    f32Mag c =
      if f32Exp c = 0 then f32Frac c
      else (2 ^ Config.floatFormat.fracBits + f32Frac c) * 2 ^ (f32Exp c - 1) := rfl

/-! ### The codec's scales -/

/-- TEMP_LSB is a sixteenth. -/
theorem tempLsb_eq : 16 * Config.tempLsb = f32One := by decide

/-- TEMP_NEG_BIAS is the 13-bit range of TEMP_LSB. -/
theorem tempNegBias_eq : Config.tempNegBias = 2 ^ 12 * Config.tempLsb := by decide

end Machine

end Sys2Proof
end

