-- ==== Sys2Proof/Laws/Decode.lean ====
section
/-! SUPPORT. The fields of a packed command word (30_encoding.md R61), and the rows of R62. -/

namespace Sys2Proof

@[simp] theorem opField_cmdWord (op : BitVec 4) (reg : Byte) (data : Half) :
    opField (cmdWord op reg data) = op := by
  apply BitVec.eq_of_getLsbD_eq
  intro j hj
  simp only [opField, cmdWord]
  interval_cases j <;> simp

@[simp] theorem rsvField_cmdWord (op : BitVec 4) (reg : Byte) (data : Half) :
    rsvField (cmdWord op reg data) = 0 := by
  apply BitVec.eq_of_getLsbD_eq
  intro j hj
  simp only [rsvField, cmdWord]
  interval_cases j <;> simp

@[simp] theorem regField_cmdWord (op : BitVec 4) (reg : Byte) (data : Half) :
    regField (cmdWord op reg data) = reg := by
  apply BitVec.eq_of_getLsbD_eq
  intro j hj
  simp only [regField, cmdWord]
  interval_cases j <;> simp

@[simp] theorem dataField_cmdWord (op : BitVec 4) (reg : Byte) (data : Half) :
    dataField (cmdWord op reg data) = data := by
  apply BitVec.eq_of_getLsbD_eq
  intro j hj
  simp only [dataField, cmdWord]
  interval_cases j <;> simp

@[simp] theorem dataLow_cmdWord_dataOfByte (op : BitVec 4) (reg v : Byte) :
    dataLow (cmdWord op reg (dataOfByte v)) = v := by
  apply BitVec.eq_of_getLsbD_eq
  intro j hj
  simp only [dataLow, cmdWord, dataOfByte]
  interval_cases j <;> simp

/-- Every word is the packing of its four fields (R61). -/
theorem cmd_fields (w : Word) :
    w = cmdWord (opField w) (regField w) (dataField w) ||| (rsvField w).zeroExtend 32 <<< 24 := by
  apply BitVec.eq_of_getLsbD_eq
  intro j hj
  simp only [opField, rsvField, regField, dataField, cmdWord]
  interval_cases j <;> simp

/-- The twelve opcodes and no other (R62, R63). -/
theorem opcodeOf_eq_some {op : BitVec 4} {o : Opcode} (h : opcodeOf op = some o) :
    op = (row o).value.extractLsb' 28 4 := by
  revert h
  cases o <;> revert op <;> decide

/-- All that the decoder accepts, and what it gives (R65). -/
theorem decode_ok_iff (w : Command) (i : Instr) :
    decode w = .ok i ↔
      ∃ op, opcodeOf (opField w.cmd) = some op ∧ w.cmd &&& (row op).mask = (row op).value ∧
        (row op).admits (regField w.cmd) = true ∧ assembleOperands w op = i := by
  unfold decode
  cases opcodeOf (opField w.cmd) with
  | none => simp
  | some op =>
    by_cases hm : w.cmd &&& (row op).mask = (row op).value
    · cases ha : (row op).admits (regField w.cmd) <;> simp [hm, ha]
    · simp [hm]

/-- A word that matches a row under a mask that covers OP names that row. -/
theorem opField_of_masked {w m v : Word} (hm : m.extractLsb' 28 4 = 0xF) (h : w &&& m = v) :
    opField w = v.extractLsb' 28 4 := by
  rw [← h, opField]
  apply BitVec.eq_of_getLsbD_eq
  intro j hj
  have hmj : m.getLsbD (28 + j) = true := by
    have := congrArg (fun x => BitVec.getLsbD x j) hm
    simp only [BitVec.getLsbD_extractLsb', hj, decide_true, Bool.true_and] at this
    rw [this]
    interval_cases j <;> rfl
  simp only [BitVec.getLsbD_extractLsb', BitVec.getLsbD_and, hmj, Bool.and_true]

end Sys2Proof
end

