-- ==== Sys2Proof/Laws/Exec.lean ====
section
/-! SUPPORT. What each meaning does, as one equation in the state it starts from, and what any command does to the
state it completes in. -/

namespace Sys2Proof.Machine

/-! ### Ends of a command -/

theorem complete_next {r : Result} {g : Bool} {s t : State} (h : complete r g s = .next t) :
    t = { s with port := some ⟨r, g⟩, results := s.results ++ [⟨r, g⟩] } := by
  simpa [complete] using h.symm

theorem raiseFault_next {c : FaultCode} {s t : State} (h : raiseFault c s = .next t) :
    t = { s with fault := c.code, port := none } := by
  simpa [raiseFault] using h.symm

theorem whenBound_bound {s : State} (h : s.bound = true) (k : Out) : whenBound s k = k := by
  simp [whenBound, h]

theorem whenBound_unbound {s : State} (h : s.bound = false) (k : Out) :
    whenBound s k = raiseFault .notBound s := by
  simp [whenBound, h]

theorem whenRegIn_mem {regs : List Byte} {reg : Byte} (h : reg ∈ regs) (s : State) (k : Out) :
    whenRegIn regs reg s k = k := by
  simp [whenRegIn, h]

theorem whenRegIn_not_mem {regs : List Byte} {reg : Byte} (h : reg ∉ regs) (s : State) (k : Out) :
    whenRegIn regs reg s k = raiseFault .illegalCommand s := by
  simp [whenRegIn, h]

theorem encodeTemp_ok {c : Word} {s : State} {raw : Half}
    (h : tempEncode s.params.encRounding c = .ok raw) (k : Half → Out) : encodeTemp c s k = k raw := by
  simp [encodeTemp, h]

theorem encodeTemp_error {c : Word} {s : State} {e : FaultCode}
    (h : tempEncode s.params.encRounding c = .error e) (k : Half → Out) :
    encodeTemp c s k = raiseFault e s := by
  simp [encodeTemp, h]

/-! ### The meanings that use the bus -/

theorem execProbe_eq (s : State) :
    execProbe s = whenBound s (whenAnswered (s.answer 0) fun st =>
      complete (.bool (st == 0)) false (s.afterBus [.beginAt s.busAddr, .ended st] 1)) := by
  rw [execProbe, probeBus_eq]

theorem execRd8_eq (reg : Byte) (s : State) :
    execRd8 reg s =
      if guarded reg then complete (.u8 0) true s
      else whenBound s (whenAnswered (s.answer 0) fun st => whenAnswered (s.answer 1) fun b0 =>
        complete (.u8 b0) false
          (s.afterBus [.beginAt s.busAddr, .write reg, .ended st, .request s.busAddr 1, .read b0] 2)) := by
  rw [execRd8, readReg8_eq]

theorem execRd16_eq (reg : Byte) (s : State) :
    execRd16 reg s =
      if guarded reg then complete (.u16 0) true s
      else whenBound s (whenAnswered (s.answer 0) fun st => whenAnswered (s.answer 1) fun b0 =>
        whenAnswered (s.answer 2) fun b1 =>
          complete (.u16 (unpack16 b0 b1)) false
            (s.afterBus [.beginAt s.busAddr, .write reg, .ended st, .request s.busAddr 2, .read b0, .read b1] 3)) := by
  rw [execRd16, readReg16_eq]

theorem execWr8_eq (reg v : Byte) (s : State) :
    execWr8 reg v s =
      if guarded reg then complete .none true s
      else whenBound s (whenAnswered (s.answer 0) fun st =>
        complete .none false (s.afterBus [.beginAt s.busAddr, .write reg, .write v, .ended st] 1)) := by
  rw [execWr8, writeReg8_eq]

theorem execWr16_eq (reg : Byte) (v : Half) (s : State) :
    execWr16 reg v s =
      if guarded reg then complete .none true s
      else whenBound s (whenAnswered (s.answer 0) fun st =>
        complete .none false
          (s.afterBus [.beginAt s.busAddr, .write reg, .write (highByte v), .write (lowByte v), .ended st] 1)) := by
  rw [execWr16, writeReg16_eq]

theorem execRdtemp_eq (reg : Byte) (s : State) :
    execRdtemp reg s = whenRegIn tempRegs reg s (whenBound s
      (whenAnswered (s.answer 0) fun st => whenAnswered (s.answer 1) fun b0 => whenAnswered (s.answer 2) fun b1 =>
        decodeTemp reg (unpack16 b0 b1)
          (s.afterBus [.beginAt s.busAddr, .write reg, .ended st, .request s.busAddr 2, .read b0, .read b1] 3))) := by
  rw [execRdtemp, readReg16_eq]

theorem execWrtemp_eq (reg : Byte) (c : Word) (s : State) :
    execWrtemp reg c s = whenRegIn thresholdRegs reg s (whenBound s (encodeTemp c s fun raw =>
      whenAnswered (s.answer 0) fun st =>
        complete .none false
          (s.afterBus [.beginAt s.busAddr, .write reg, .write (highByte raw), .write (lowByte raw), .ended st] 1))) := by
  simp only [execWrtemp, writeReg16_eq]

theorem execSetres_eq (v : Byte) (s : State) :
    execSetres v s =
      if resGuarded v then complete .none true s
      else whenBound s (whenAnswered (s.answer 0) fun st =>
        complete .none false
          (s.afterBus [.beginAt s.busAddr, .write Config.regResolution, .write v, .ended st] 1)) := by
  rw [execSetres, writeReg8_eq]

/-! ### What any command does -/

/-- An event of a transaction with the sensor at `a` (20_memory.md R46). -/
def BusEvent.AddressedTo (a : BitVec 7) : BusEvent → Prop
  | .beginAt b   => b = a
  | .request b n => b = a ∧ (n = 1 ∨ n = 2)
  | .init        => False
  | .write _     => True
  | .ended _     => True
  | .read _      => True

/-- What a completed command has done to the block's registers (the state `s₀`) and the events it emitted. -/
inductive Ran (i : Instr) (s : State) : State → List BusEvent → Prop
  /-- No register written, no event. -/
  | quiet : Ran i s s []
  /-- No register written, one transaction with the bound sensor. -/
  | onBus (ev : List BusEvent) : s.bound = true → (∀ e ∈ ev, e.AddressedTo s.busAddr) → Ran i s s ev
  /-- BIND has latched an address. -/
  | latched (a : Half) : i = .bind a → bindable a = true → Ran i s (s.latchAddress a) [.init]
  /-- DECODE has captured the status bits. -/
  | captured (raw : Half) : i = .decode Config.regAmbient raw → Ran i s (s.captureStatus (statusOf raw)) []
  /-- RDTEMP has captured the status bits of what it read. -/
  | sampled (raw : Half) (ev : List BusEvent) : i = .rdtemp Config.regAmbient → s.bound = true →
      (∀ e ∈ ev, e.AddressedTo s.busAddr) → Ran i s (s.captureStatus (statusOf raw)) ev

/-- How a step of the block that executes a command comes to `t`: it faulted, or it completed. -/
def Outcomes (i : Instr) (s t : State) : Prop :=
  (∃ c : FaultCode, t = { s with fault := c.code, port := none }) ∨
  ∃ s₀ ev n r g, Ran i s s₀ ev ∧
    t = { s₀.afterBus ev n with port := some ⟨r, g⟩, results := s.results ++ [⟨r, g⟩] }

theorem outcomes_raise {i : Instr} {s t : State} {c : FaultCode} (h : raiseFault c s = .next t) :
    Outcomes i s t := .inl ⟨c, raiseFault_next h⟩

theorem outcomes_quiet {i : Instr} {s t : State} {r : Result} {g : Bool} (h : complete r g s = .next t) :
    Outcomes i s t := by
  refine .inr ⟨s, [], 0, r, g, .quiet, ?_⟩
  rw [State.afterBus_nil]
  exact complete_next h

theorem outcomes_onBus {i : Instr} {s t : State} {r : Result} {g : Bool} {ev : List BusEvent} {n : Nat}
    (hb : s.bound = true) (hev : ∀ e ∈ ev, e.AddressedTo s.busAddr)
    (h : complete r g (s.afterBus ev n) = .next t) : Outcomes i s t :=
  .inr ⟨s, ev, n, r, g, .onBus ev hb hev, complete_next h⟩

/-- A command that needs a bound block either faults NotBound or goes on. -/
theorem outcomes_whenBound {i : Instr} {s t : State} {k : Out} (h : whenBound s k = .next t)
    (hk : s.bound = true → k = .next t → Outcomes i s t) : Outcomes i s t := by
  cases hb : s.bound
  · rw [whenBound_unbound hb] at h
    exact outcomes_raise h
  · rw [whenBound_bound hb] at h
    exact hk hb h

theorem outcomes_whenRegIn {i : Instr} {s t : State} {k : Out} {regs : List Byte} {reg : Byte}
    (h : whenRegIn regs reg s k = .next t) (hk : k = .next t → Outcomes i s t) : Outcomes i s t := by
  by_cases hr : reg ∈ regs
  · rw [whenRegIn_mem hr] at h
    exact hk h
  · rw [whenRegIn_not_mem hr] at h
    exact outcomes_raise h

theorem outcomes_encodeTemp {i : Instr} {s t : State} {c : Word} {k : Half → Out}
    (h : encodeTemp c s k = .next t) (hk : ∀ raw, k raw = .next t → Outcomes i s t) : Outcomes i s t := by
  cases he : tempEncode s.params.encRounding c with
  | ok raw =>
    rw [encodeTemp_ok he] at h
    exact hk raw h
  | error e =>
    rw [encodeTemp_error he] at h
    exact outcomes_raise h

theorem outcomes_whenAnswered {i : Instr} {s t : State} {a : Option Byte} {k : Byte → Out}
    (h : whenAnswered a k = .next t) (hk : ∀ b, k b = .next t → Outcomes i s t) : Outcomes i s t :=
  let ⟨b, _, hb⟩ := whenAnswered_next h
  hk b hb

/-- All that a command can do to the state, whatever the command: the lemma every invariant rests on. -/
theorem exec_outcomes {i : Instr} {s t : State} (h : exec i s = .next t) : Outcomes i s t := by
  cases i with
  | bind a =>
    simp only [exec, execBind] at h
    split at h
    case isTrue hb => exact .inr ⟨_, _, 0, _, _, .latched a rfl hb, complete_next h⟩
    case isFalse => exact outcomes_quiet h
  | probe =>
    rw [exec, execProbe_eq] at h
    exact outcomes_whenBound h fun hb h => outcomes_whenAnswered h fun _ h =>
      outcomes_onBus hb (by simp [BusEvent.AddressedTo]) h
  | rd8 reg =>
    rw [exec, execRd8_eq] at h
    split at h
    · exact outcomes_quiet h
    · exact outcomes_whenBound h fun hb h => outcomes_whenAnswered h fun _ h => outcomes_whenAnswered h fun _ h =>
        outcomes_onBus hb (by simp [BusEvent.AddressedTo]) h
  | rd16 reg =>
    rw [exec, execRd16_eq] at h
    split at h
    · exact outcomes_quiet h
    · exact outcomes_whenBound h fun hb h => outcomes_whenAnswered h fun _ h => outcomes_whenAnswered h fun _ h =>
        outcomes_whenAnswered h fun _ h => outcomes_onBus hb (by simp [BusEvent.AddressedTo]) h
  | wr8 reg v =>
    rw [exec, execWr8_eq] at h
    split at h
    · exact outcomes_quiet h
    · exact outcomes_whenBound h fun hb h => outcomes_whenAnswered h fun _ h =>
        outcomes_onBus hb (by simp [BusEvent.AddressedTo]) h
  | wr16 reg v =>
    rw [exec, execWr16_eq] at h
    split at h
    · exact outcomes_quiet h
    · exact outcomes_whenBound h fun hb h => outcomes_whenAnswered h fun _ h =>
        outcomes_onBus hb (by simp [BusEvent.AddressedTo]) h
  | decode reg raw =>
    rw [exec, execDecode] at h
    refine outcomes_whenRegIn h fun h => ?_
    rw [decodeTemp] at h
    split at h
    case isTrue hr =>
      subst hr
      refine .inr ⟨_, _, 0, .f32 (tempDecode raw), false, .captured raw rfl, ?_⟩
      rw [State.afterBus_nil]
      exact complete_next h
    case isFalse => exact outcomes_quiet h
  | encode c =>
    rw [exec, execEncode] at h
    exact outcomes_encodeTemp h fun _ h => outcomes_quiet h
  | rdtemp reg =>
    rw [exec, execRdtemp_eq] at h
    refine outcomes_whenRegIn h fun h => outcomes_whenBound h fun hb h => outcomes_whenAnswered h fun _ h =>
      outcomes_whenAnswered h fun _ h => outcomes_whenAnswered h fun _ h => ?_
    rw [decodeTemp] at h
    split at h
    case isTrue hr =>
      subst hr
      exact .inr ⟨_, _, _, _, _, .sampled _ _ rfl hb (by simp [BusEvent.AddressedTo]), complete_next h⟩
    case isFalse => exact outcomes_onBus hb (by simp [BusEvent.AddressedTo]) h
  | wrtemp reg c =>
    rw [exec, execWrtemp_eq] at h
    exact outcomes_whenRegIn h fun h => outcomes_whenBound h fun hb h => outcomes_encodeTemp h fun _ h =>
      outcomes_whenAnswered h fun _ h => outcomes_onBus hb (by simp [BusEvent.AddressedTo]) h
  | getstatus =>
    simp only [exec, execGetstatus] at h
    split at h
    · exact outcomes_quiet h
    · split at h
      · exact outcomes_raise h
      · exact outcomes_quiet h
  | setres v =>
    rw [exec, execSetres_eq] at h
    split at h
    · exact outcomes_quiet h
    · exact outcomes_whenBound h fun hb h => outcomes_whenAnswered h fun _ h =>
        outcomes_onBus hb (by simp [BusEvent.AddressedTo]) h

end Sys2Proof.Machine
end

