-- ==== Sys2Proof/Laws/Operands.lean ====
section
/-! SUPPORT. The guards, the BIND range and the byte forms, each as the spec's arithmetic or field. -/

namespace Sys2Proof.Machine

/-- R100: addresses 0x00 to 0x08 pass. -/
theorem guarded_iff (reg : Byte) : guarded reg = true ↔ 0x08 < reg.toNat := by
  simp [guarded, Config.regMax, BitVec.lt_def]

/-- R144: values 0 to 3 pass. -/
theorem resGuarded_iff (v : Byte) : resGuarded v = true ↔ 4 ≤ v.toNat := by
  simp [resGuarded, Config.resLimit, BitVec.le_def]

/-- R140: 24 to 31. -/
theorem bindable_iff (a : Half) : bindable a = true ↔ 24 ≤ a.toNat ∧ a.toNat ≤ 31 := by
  rw [bindable, Bool.and_eq_true, decide_eq_true_iff, decide_eq_true_iff]
  rfl

theorem lowByte_toNat (v : Half) : (lowByte v).toNat = v.toNat % 256 := by
  simp [lowByte]

theorem highByte_toNat (v : Half) : (highByte v).toNat = v.toNat / 256 := by
  have := v.isLt
  simp only [highByte, BitVec.extractLsb'_toNat, Nat.shiftRight_eq_div_pow]
  omega

theorem unpack16_toNat (b0 b1 : Byte) : (unpack16 b0 b1).toNat = b0.toNat * 256 + b1.toNat := by
  have h : (unpack16 b0 b1).toNat = b0.toNat <<< 8 ||| b1.toNat := BitVec.toNat_append b0 b1
  rw [h, ← Nat.shiftLeft_add_eq_or_of_lt b1.isLt, Nat.shiftLeft_eq]

/-- A value is the packing of the two bytes a write sends (R44, R45). -/
theorem unpack16_highByte_lowByte (v : Half) : unpack16 (highByte v) (lowByte v) = v := by
  apply BitVec.eq_of_toNat_eq
  rw [unpack16_toNat, highByte_toNat, lowByte_toNat]
  omega

theorem busAddr_toNat (s : State) : s.busAddr.toNat = s.devAddr.toNat % 128 := by
  simp [State.busAddr]

theorem statusByte_toNat (st : BitVec 3) : (statusByte st).toNat = st.toNat := by
  have := st.isLt
  simp only [statusByte, BitVec.toNat_setWidth]
  omega

/-- R122: StatusOf is the field raw16[15:13]. -/
theorem statusOf_toNat (raw : Half) : (statusOf raw).toNat = raw.toNat / 2 ^ 13 := by
  have h : statusOf raw = raw.extractLsb' 13 3 := by
    apply BitVec.eq_of_getLsbD_eq
    intro j hj
    simp only [statusOf, Config.statusMask, Config.statusShift]
    interval_cases j <;> simp
  have := raw.isLt
  rw [h, BitVec.extractLsb'_toNat, Nat.shiftRight_eq_div_pow]
  omega

end Sys2Proof.Machine
end

