-- ==== Sys2Proof/Laws/PerInstr.lean ====
section
/-! SUPPORT. Per instruction, as syntax: its encoding is a word of its row of 30_encoding.md R62. -/

namespace Sys2Proof.Laws.EncodedRow

/-- The encoded word's OP names the instruction's row, and the word matches that row under its mask (R61, R62). -/
def Statement (i : Instr) : Prop :=
  opcodeOf (opField (encode i).cmd) = some (opcode i) ∧
    (encode i).cmd &&& (row (opcode i)).mask = (row (opcode i)).value

/-- The mask of a row with REG and DATA operands leaves OP and RSV. -/
theorem cmdWord_and_ff000000 (op : BitVec 4) (reg : Byte) (data : Half) :
    cmdWord op reg data &&& 0xFF000000 = op.zeroExtend 32 <<< 28 := by
  apply BitVec.eq_of_getLsbD_eq
  intro j hj
  simp only [cmdWord]
  interval_cases j <;> simp

/-- The mask of a row whose DATA must be 0. -/
theorem cmdWord_and_ff00ffff (op : BitVec 4) (reg : Byte) :
    cmdWord op reg 0 &&& 0xFF00FFFF = op.zeroExtend 32 <<< 28 := by
  apply BitVec.eq_of_getLsbD_eq
  intro j hj
  simp only [cmdWord]
  interval_cases j <;> simp

/-- The mask of a row whose DATA[15:8] must be 0. -/
theorem cmdWord_and_ff00ff00 (op : BitVec 4) (reg v : Byte) :
    cmdWord op reg (dataOfByte v) &&& 0xFF00FF00 = op.zeroExtend 32 <<< 28 := by
  apply BitVec.eq_of_getLsbD_eq
  intro j hj
  simp only [cmdWord, dataOfByte]
  interval_cases j <;> simp

/-- The mask of a row whose REG must be 0. -/
theorem cmdWord_and_ffff0000 (op : BitVec 4) (data : Half) :
    cmdWord op 0 data &&& 0xFFFF0000 = op.zeroExtend 32 <<< 28 := by
  apply BitVec.eq_of_getLsbD_eq
  intro j hj
  simp only [cmdWord]
  interval_cases j <;> simp

/-- The mask of a row whose REG and DATA[15:8] must be 0. -/
theorem cmdWord_and_ffffff00 (op : BitVec 4) (v : Byte) :
    cmdWord op 0 (dataOfByte v) &&& 0xFFFFFF00 = op.zeroExtend 32 <<< 28 := by
  apply BitVec.eq_of_getLsbD_eq
  intro j hj
  simp only [cmdWord, dataOfByte]
  interval_cases j <;> simp

theorem bind (addr : Half) : Statement (.bind addr) :=
  ⟨(congrArg opcodeOf (opField_cmdWord _ _ _)).trans rfl, (cmdWord_and_ffff0000 _ _).trans rfl⟩

theorem probe : Statement .probe :=
  ⟨(congrArg opcodeOf (opField_cmdWord _ _ _)).trans rfl, by decide⟩

theorem rd8 (reg : Byte) : Statement (.rd8 reg) :=
  ⟨(congrArg opcodeOf (opField_cmdWord _ _ _)).trans rfl, (cmdWord_and_ff00ffff _ _).trans rfl⟩

theorem rd16 (reg : Byte) : Statement (.rd16 reg) :=
  ⟨(congrArg opcodeOf (opField_cmdWord _ _ _)).trans rfl, (cmdWord_and_ff00ffff _ _).trans rfl⟩

theorem wr8 (reg v : Byte) : Statement (.wr8 reg v) :=
  ⟨(congrArg opcodeOf (opField_cmdWord _ _ _)).trans rfl, (cmdWord_and_ff00ff00 _ _ _).trans rfl⟩

theorem wr16 (reg : Byte) (v : Half) : Statement (.wr16 reg v) :=
  ⟨(congrArg opcodeOf (opField_cmdWord _ _ _)).trans rfl, (cmdWord_and_ff000000 _ _ _).trans rfl⟩

theorem decode (reg : Byte) (raw : Half) : Statement (.decode reg raw) :=
  ⟨(congrArg opcodeOf (opField_cmdWord _ _ _)).trans rfl, (cmdWord_and_ff000000 _ _ _).trans rfl⟩

theorem encode (c : Word) : Statement (.encode c) :=
  ⟨(congrArg opcodeOf (opField_cmdWord _ _ _)).trans rfl, (by decide : cmdWord 0x8 0 0 &&& 0xFFFFFFFF = 0x80000000)⟩

theorem rdtemp (reg : Byte) : Statement (.rdtemp reg) :=
  ⟨(congrArg opcodeOf (opField_cmdWord _ _ _)).trans rfl, (cmdWord_and_ff00ffff _ _).trans rfl⟩

theorem wrtemp (reg : Byte) (c : Word) : Statement (.wrtemp reg c) :=
  ⟨(congrArg opcodeOf (opField_cmdWord _ _ _)).trans rfl, (cmdWord_and_ff00ffff _ _).trans rfl⟩

theorem getstatus : Statement .getstatus :=
  ⟨(congrArg opcodeOf (opField_cmdWord _ _ _)).trans rfl, by decide⟩

theorem setres (v : Byte) : Statement (.setres v) :=
  ⟨(congrArg opcodeOf (opField_cmdWord _ _ _)).trans rfl, (cmdWord_and_ffffff00 _ _).trans rfl⟩

end Sys2Proof.Laws.EncodedRow
end

