-- ==== Sys2Proof/Laws/Port.lean ====
section
/-! SUPPORT. What the command port gives the block (30_encoding.md R60): one lemma per case, and that there is no other. -/

namespace Sys2Proof.Machine

variable {s : State} {w : Command} {rest : List HostInput}

theorem fetch_idle (h : s.inputs = []) : fetch s = .idle := by
  simp [fetch, h]

theorem fetch_reset (h : s.inputs = .reset :: rest) :
    fetch s = .reset (applyReset { s with inputs := rest }) := by
  simp [fetch, h]

theorem fetch_stuck (hf : s.fault ≠ 0) (h : s.inputs = .command w :: rest) : fetch s = .stuck := by
  simp only [fetch, h, if_pos hf]

theorem fetch_illegal {e : DecodeError} (hf : s.fault = 0) (h : s.inputs = .command w :: rest)
    (hd : decode w = .error e) : fetch s = .illegal { s with inputs := rest } := by
  simp only [fetch, h, if_neg (not_not_intro hf), hd]

theorem fetch_run {i : Instr} (hf : s.fault = 0) (h : s.inputs = .command w :: rest)
    (hd : decode w = .ok i) : fetch s = .run i { s with inputs := rest } := by
  simp only [fetch, h, if_neg (not_not_intro hf), hd]

/-- Every state of the port is one of these five. -/
theorem port_cases (s : State) :
    s.inputs = [] ∨
    (∃ rest, s.inputs = .reset :: rest) ∨
    (∃ w rest, s.inputs = .command w :: rest ∧ s.fault ≠ 0) ∨
    (∃ w rest e, s.inputs = .command w :: rest ∧ s.fault = 0 ∧ decode w = .error e) ∨
    (∃ w rest i, s.inputs = .command w :: rest ∧ s.fault = 0 ∧ decode w = .ok i) := by
  cases h : s.inputs with
  | nil => exact .inl rfl
  | cons x rest =>
    cases x with
    | reset => exact .inr (.inl ⟨rest, rfl⟩)
    | command w =>
      by_cases hf : s.fault = 0
      · cases hd : decode w with
        | error e => exact .inr (.inr (.inr (.inl ⟨w, rest, e, rfl, hf, hd⟩)))
        | ok i => exact .inr (.inr (.inr (.inr ⟨w, rest, i, rfl, hf, hd⟩)))
      · exact .inr (.inr (.inl ⟨w, rest, rfl, hf⟩))

end Sys2Proof.Machine
end

