-- ==== Sys2Proof/Tests/Slice0.lean ====
section
/-! SUPPORT. The model's own tests. Expected values come from the spec: the encodings of 30_encoding.md R61 to R75 and
the vectors of 95_test_vectors.md, named in each comment. Then, for every statement with hypotheses, a state and
operands that meet them. -/

namespace Sys2Proof.Tests

open Sys2Proof.Machine Sys2Proof.Certificates

/-! ### Helpers -/

/-- The next state of an outcome. -/
def nextState : Out → Option State
  | .next t => some t
  | _       => none

/-- Bound at `a`, with the bus agent's answers fixed. -/
def boundAt (a : Byte) (answers : List (Option Byte)) : State :=
  { State.reset with bound := true, devAddr := a, busHistory := [.init], busScript := answers }

/-- Reset, with FAULT set. -/
def halted (code : BitVec 3) : State := { State.reset with fault := code }

/-- Reset, with one input presented. -/
def given (i : HostInput) (s : State) : State := { s with inputs := [i] }

/-- One step on a presented command: what is on the port, FAULT, and the events it added. -/
def seen (cmd fop : Word) (s : State) : Option (Option Output × BitVec 3 × List BusEvent) :=
  (nextState (step (present ⟨cmd, fop⟩ s))).map fun t =>
    (t.port, t.fault, t.busHistory.drop s.busHistory.length)

/-- One step on a presented command: the block's five registers. -/
def registers (cmd fop : Word) (s : State) : Option (Bool × Byte × BitVec 3 × Bool × BitVec 3) :=
  (nextState (step (present ⟨cmd, fop⟩ s))).map fun t => (t.bound, t.devAddr, t.status, t.statusValid, t.fault)

/-! ### WellFormed: one ill-formed term for each check, refused -/

theorem test_wellFormed_refuses_decode_of_config : wellFormed (.decode 0x01 0) = false := by decide
theorem test_wellFormed_refuses_rdtemp_of_manufacturer : wellFormed (.rdtemp 0x06) = false := by decide
theorem test_wellFormed_refuses_wrtemp_of_ambient : wellFormed (.wrtemp 0x05 0) = false := by decide
theorem test_wellFormed_accepts_the_ends_of_the_sets :
    wellFormed (.decode 0x02 0) = true ∧ wellFormed (.rdtemp 0x05) = true ∧ wellFormed (.wrtemp 0x04 0) = true := by
  decide

/-! ### Decoding: one word of every constructor, field by field as R61 packs them (op ++ rsv ++ reg ++ data) -/

theorem test_decode_bind :
    decode ⟨0x1#4 ++ 0#4 ++ 0x00#8 ++ 0x0118#16, 0⟩ = .ok (.bind 0x0118) := by rfl
theorem test_decode_probe :
    decode ⟨0x2#4 ++ 0#4 ++ 0x00#8 ++ 0x0000#16, 0⟩ = .ok .probe := by rfl
theorem test_decode_rd8 :
    decode ⟨0x3#4 ++ 0#4 ++ 0xA5#8 ++ 0x0000#16, 0⟩ = .ok (.rd8 0xA5) := by rfl
theorem test_decode_rd16 :
    decode ⟨0x4#4 ++ 0#4 ++ 0x5A#8 ++ 0x0000#16, 0⟩ = .ok (.rd16 0x5A) := by rfl
theorem test_decode_wr8 :
    decode ⟨0x5#4 ++ 0#4 ++ 0x08#8 ++ 0x00C3#16, 0⟩ = .ok (.wr8 0x08 0xC3) := by rfl
theorem test_decode_wr16 :
    decode ⟨0x6#4 ++ 0#4 ++ 0x01#8 ++ 0x1234#16, 0⟩ = .ok (.wr16 0x01 0x1234) := by rfl
theorem test_decode_decode :
    decode ⟨0x7#4 ++ 0#4 ++ 0x05#8 ++ 0xC190#16, 0⟩ = .ok (.decode 0x05 0xC190) := by rfl
theorem test_decode_encode :
    decode ⟨0x8#4 ++ 0#4 ++ 0x00#8 ++ 0x0000#16, 0xBF800000⟩ = .ok (.encode 0xBF800000) := by rfl
theorem test_decode_rdtemp :
    decode ⟨0x9#4 ++ 0#4 ++ 0x03#8 ++ 0x0000#16, 0⟩ = .ok (.rdtemp 0x03) := by rfl
theorem test_decode_wrtemp :
    decode ⟨0xA#4 ++ 0#4 ++ 0x02#8 ++ 0x0000#16, 0x41C80000⟩ = .ok (.wrtemp 0x02 0x41C80000) := by rfl
theorem test_decode_getstatus :
    decode ⟨0xB#4 ++ 0#4 ++ 0x00#8 ++ 0x0000#16, 0⟩ = .ok .getstatus := by rfl
theorem test_decode_setres :
    decode ⟨0xC#4 ++ 0#4 ++ 0x00#8 ++ 0x00FF#16, 0⟩ = .ok (.setres 0xFF) := by rfl

/-- A word of the opcode table: an ENCODE row has the 32 bits of CMD, so its FOP is 0. -/
theorem test_decodeTableWord_encode :
    decodeTableWord 32 0x80000000 = some (.encode 0) ∧
    decodeTableWord 64 0xBF80000080000000 = some (.encode 0xBF800000) := by decide

/-- 95_test_vectors.md 2.6: the reserved opcodes. -/
theorem test_decode_refuses_reserved_opcodes :
    decode ⟨0x00000000, 0⟩ = .error .reservedOpcode ∧ decode ⟨0xD0000000, 0⟩ = .error .reservedOpcode ∧
    decode ⟨0xE0000000, 0⟩ = .error .reservedOpcode ∧ decode ⟨0xF0000000, 0⟩ = .error .reservedOpcode :=
  ⟨rfl, rfl, rfl, rfl⟩

/-- 95_test_vectors.md 2.6: RSV, REG and DATA that must be 0. -/
theorem test_decode_refuses_nonzero_reserved_fields :
    decode ⟨0x31080000, 0⟩ = .error .mustBeZero ∧ decode ⟨0x50080103, 0⟩ = .error .mustBeZero ∧
    decode ⟨0x10010018, 0⟩ = .error .mustBeZero ∧ decode ⟨0xC0000100, 0⟩ = .error .mustBeZero ∧
    decode ⟨0x80000001, 0⟩ = .error .mustBeZero ∧ decode ⟨0xB0050000, 0⟩ = .error .mustBeZero :=
  ⟨rfl, rfl, rfl, rfl, rfl, rfl⟩

/-- 95_test_vectors.md 2.6: REG outside the opcode's set. -/
theorem test_decode_refuses_registers_outside_the_set :
    decode ⟨0x70010000, 0⟩ = .error .regOutsideSet ∧ decode ⟨0x70060000, 0⟩ = .error .regOutsideSet ∧
    decode ⟨0x90060000, 0⟩ = .error .regOutsideSet ∧ decode ⟨0xA0050000, 0⟩ = .error .regOutsideSet :=
  ⟨rfl, rfl, rfl, rfl⟩

/-! ### One step of each command -/

/-- CT1, from reset. -/
theorem test_bind_latches :
    registers 0x10000018 0 State.reset = some (true, 0x18, 0, false, 0) ∧
    seen 0x10000018 0 State.reset = some (some ⟨.bool true, false⟩, 0, [.init]) := by decide

/-- CT2: the whole 16 bits are compared. -/
theorem test_bind_compares_sixteen_bits :
    seen 0x10000118 0 State.reset = some (some ⟨.bool false, false⟩, 0, []) := by decide

/-- CT8. -/
theorem test_probe_nonzero_status_is_false :
    seen 0x20000000 0 (boundAt 0x18 [some 2]) =
      some (some ⟨.bool false, false⟩, 0, [.beginAt 0x18, .ended 2]) := by decide

/-- CT9. -/
theorem test_probe_unbound : seen 0x20000000 0 State.reset = some (none, 2, []) := by decide

/-- RA2: the end status is ignored. -/
theorem test_rd8_reads_one_byte :
    seen 0x30080000 0 (boundAt 0x18 [some 3, some 0x01]) =
      some (some ⟨.u8 0x01, false⟩, 0,
        [.beginAt 0x18, .write 0x08, .ended 3, .request 0x18 1, .read 0x01]) := by decide

/-- RA9: the guard stops 0x09. -/
theorem test_rd8_guarded : seen 0x30090000 0 (boundAt 0x18 []) = some (some ⟨.u8 0, true⟩, 0, []) := by decide

/-- RA5: the high byte comes first, and RD16 captures no status. -/
theorem test_rd16_is_big_endian :
    seen 0x40050000 0 (boundAt 0x18 [some 0, some 0xC1, some 0x90]) =
      some (some ⟨.u16 0xC190, false⟩, 0,
        [.beginAt 0x18, .write 0x05, .ended 0, .request 0x18 2, .read 0xC1, .read 0x90]) ∧
    registers 0x40050000 0 (boundAt 0x18 [some 0, some 0xC1, some 0x90]) =
      some (true, 0x18, 0, false, 0) := by decide

/-- RA12 and RA13: the guard comes before the bound check. -/
theorem test_rd16_guard_before_bound_check :
    seen 0x40090000 0 State.reset = some (some ⟨.u16 0, true⟩, 0, []) ∧
    seen 0x40080000 0 State.reset = some (none, 2, []) := by decide

/-- RA6. -/
theorem test_wr8_sends_one_byte :
    seen 0x50080002 0 (boundAt 0x18 [some 0]) =
      some (some ⟨.none, false⟩, 0, [.beginAt 0x18, .write 0x08, .write 0x02, .ended 0]) := by decide

/-- RA11. -/
theorem test_wr8_guarded : seen 0x501000AA 0 (boundAt 0x18 []) = some (some ⟨.none, true⟩, 0, []) := by decide

/-- W2: the high byte goes first. -/
theorem test_wr16_is_big_endian :
    seen 0x60011234 0 (boundAt 0x18 [some 7]) =
      some (some ⟨.none, false⟩, 0, [.beginAt 0x18, .write 0x01, .write 0x12, .write 0x34, .ended 7]) := by decide

/-- W6. -/
theorem test_wr16_guarded : seen 0x60FFFFFF 0 (boundAt 0x18 []) = some (some ⟨.none, true⟩, 0, []) := by decide

/-- R123's example: 25.0, STATUS = 6. -/
theorem test_decode_ambient :
    seen 0x7005C190 0 State.reset = some (some ⟨.f32 0x41C80000, false⟩, 0, []) ∧
    registers 0x7005C190 0 State.reset = some (false, 0, 6, true, 0) := by decide

/-- DC1: no capture for register 0x02; W4: the negative branch. -/
theorem test_decode_threshold :
    registers 0x7002C190 0 State.reset = some (false, 0, 0, false, 0) ∧
    seen 0x70021010 0 State.reset = some (some ⟨.f32 0xC37F0000, false⟩, 0, []) := by decide

/-- 95_test_vectors.md 2.3: -1.0, and the carry of 255.875 into bit 12. -/
theorem test_encode_values :
    seen 0x80000000 0xBF800000 State.reset = some (some ⟨.u16 0x1010, false⟩, 0, []) ∧
    seen 0x80000000 0x437FE000 State.reset = some (some ⟨.u16 0x1000, false⟩, 0, []) := by decide

/-- 95_test_vectors.md 2.3: 4095.5 and 4095.875, NaN. -/
theorem test_encode_faults :
    seen 0x80000000 0x457FF800 State.reset = some (some ⟨.u16 0xFFF8, false⟩, 0, []) ∧
    seen 0x80000000 0x457FFE00 State.reset = some (none, 4, []) ∧
    seen 0x80000000 0x7FC00000 State.reset = some (none, 3, []) := by decide

/-- T1. -/
theorem test_rdtemp_ambient :
    seen 0x90050000 0 (boundAt 0x18 [some 0, some 0xC1, some 0x90]) =
      some (some ⟨.f32 0x41C80000, false⟩, 0,
        [.beginAt 0x18, .write 0x05, .ended 0, .request 0x18 2, .read 0xC1, .read 0x90]) ∧
    registers 0x90050000 0 (boundAt 0x18 [some 0, some 0xC1, some 0x90]) = some (true, 0x18, 6, true, 0) := by decide

/-- T2: a threshold register captures no status. -/
theorem test_rdtemp_threshold :
    registers 0x90020000 0 (boundAt 0x18 [some 0, some 0xE1, some 0x40]) = some (true, 0x18, 0, false, 0) := by decide

/-- T7. -/
theorem test_wrtemp_negative :
    seen 0xA0040000 0xBF800000 (boundAt 0x18 [some 0]) =
      some (some ⟨.none, false⟩, 0, [.beginAt 0x18, .write 0x04, .write 0x10, .write 0x10, .ended 0]) := by decide

/-- T10, T8 and T11: the order of checks. -/
theorem test_wrtemp_check_order :
    seen 0xA0030000 0x7FC00000 State.reset = some (none, 2, []) ∧
    seen 0xA0030000 0x7FC00000 (boundAt 0x18 []) = some (none, 3, []) ∧
    seen 0xA0050000 0x7FC00000 (boundAt 0x18 []) = some (none, 1, []) := by decide

/-- CT13. -/
theorem test_getstatus_after_decode :
    seen 0xB0000000 0 { State.reset with status := 4, statusValid := true } =
      some (some ⟨.u8 4, false⟩, 0, []) := by decide

/-- CT11 and CT12: both settings of STATUS_BEFORE_READ. -/
theorem test_getstatus_before_read :
    seen 0xB0000000 0 State.reset = some (none, 5, []) ∧
    seen 0xB0000000 0 { State.reset with params := ⟨.exactHalfUp, .zero⟩ } =
      some (some ⟨.u8 0, false⟩, 0, []) := by decide

/-- CT16. -/
theorem test_setres_writes :
    seen 0xC0000002 0 (boundAt 0x1F [some 0]) =
      some (some ⟨.none, false⟩, 0, [.beginAt 0x1F, .write 0x08, .write 0x02, .ended 0]) := by decide

/-- CT14 and CT15. -/
theorem test_setres_guard_before_bound_check :
    seen 0xC0000004 0 State.reset = some (some ⟨.none, true⟩, 0, []) ∧
    seen 0xC0000001 0 State.reset = some (none, 2, []) := by decide

/-! ### Port, reset, parameters, pseudo-instructions, several instances -/

/-- X1: a halted block executes nothing. -/
theorem test_halted_block_stops :
    nextState (step (present ⟨0xB0000000, 0⟩ (halted 3))) = none := by decide

/-- X4: reset after a fault. -/
theorem test_reset_after_fault :
    nextState (step (given .reset { boundAt 0x18 [some 1] with fault := 4, statusValid := true })) =
      some { State.reset with busScript := [some 1] } := by decide

/-- 95_test_vectors.md 2.3: the two settings of ENC_ROUNDING on 0x3DFFFFFF. -/
theorem test_encode_roundings :
    (tempEncode .exactHalfUp 0x3DFFFFFF).toOption = some 0x0000 ∧
    (tempEncode .f32AddFloor 0x3DFFFFFF).toOption = some 0x0004 := by decide

/-- R126: an overflow of `rnd32` is an EncodeRange. -/
theorem test_encode_largest_float_overflows :
    round4 .f32AddFloor (f32Mag 0x7F7FFFFF) = none ∧ (tempEncode .f32AddFloor 0x7F7FFFFF).toOption = none := by decide

/-- R73, R69 and RA4. -/
theorem test_pseudo_identity_slices :
    Pseudo.getDevId.expand = .rd16 0x07 ∧ Pseudo.getDevId.hostResult (.u16 0x0401) = .u8 0x04 ∧
    Pseudo.getRev.hostResult (.u16 0x0401) = .u8 0x01 := by decide

/-- R74: an operand that does not fit, one too many, one missing, and raw float bits. -/
theorem test_assembler_operands :
    assemble "SETRES 0x10000" = none ∧ assemble "PROBE 1" = none ∧ assemble "RD8" = none ∧
    assemble "ENCODE #0x7FC00000" = some ⟨0x80000000, 0x7FC00000⟩ ∧ assemble "ENCODE #0.1" = none := by decide

/-- R209: the second of two instances moves; its events carry its number. -/
theorem test_platform_move :
    (match (Platform.move ⟨[State.reset, present ⟨0x20000000, 0⟩ (boundAt 0x19 [])], [some 0], 0, []⟩ 1) with
      | .next q => some (q.bus, q.busScript, q.blocks.head?)
      | _       => none) =
      some ([(1, .beginAt 0x19), (1, .ended 0)], [], some State.reset) := by decide

/-! ### Witnesses: a state and operands that meet the hypotheses of each statement, each clause at its boundary -/

/-- A state with two later answers, `b0` and `b1`, after the end status 0. -/
def answering (b0 b1 : Byte) : State := boundAt 0x1F [some 0, some b0, some b1]

theorem witness_DecodeOfEncodeIsTheInstruction :
    wellFormed (.decode 0x05 0xFFFF) = true ∧ wellFormed (.rdtemp 0x02) = true ∧
    wellFormed (.wrtemp 0x04 0xFFFFFFFF) = true := by decide

theorem witness_EncodeOfDecodeIsTheCommand :
    decode ⟨0xA0040000, 0xFFFFFFFF⟩ = .ok (.wrtemp 0x04 0xFFFFFFFF) ∧
    floatOperand (.wrtemp 0x04 0xFFFFFFFF) ≠ none := ⟨rfl, by decide⟩

/-- Legal words at the ends of each constraint of R62. -/
theorem witness_IllegalCommandsFaultAndLegalOnesDecode_legal :
    legal 0x1000FFFF ∧ legal 0x30FF0000 ∧ legal 0x50FF00FF ∧ legal 0x70050000 ∧ legal 0x90020000 ∧
    legal 0xA0040000 ∧ legal 0xC00000FF := by
  and_intros <;> decide

/-- Words just outside each constraint of R62. -/
theorem witness_IllegalCommandsFaultAndLegalOnesDecode_illegal :
    ¬ legal 0x10010018 ∧ ¬ legal 0x20000001 ∧ ¬ legal 0x50080103 ∧ ¬ legal 0x61000000 ∧ ¬ legal 0x70060000 ∧
    ¬ legal 0x90010000 ∧ ¬ legal 0xA0050000 ∧ ¬ legal 0xC0000100 := by
  and_intros <;> decide

theorem witness_IllegalCommandsFaultAndLegalOnesDecode_presented :
    (0xF0000000 : Word) >>> 28 = 0xF ∧ (0x0FFFFFFF : Word) >>> 28 = 0x0 ∧
    (given (.command ⟨0xF0000000, 0⟩) State.reset).inputs = .command ⟨0xF0000000, 0⟩ :: [] ∧
    (given (.command ⟨0xF0000000, 0⟩) State.reset).fault = 0 := by decide

theorem witness_OnlyEncodeAndWrtempReadFop :
    (0x7005C190 : Word) >>> 28 ≠ 0x8 ∧ (0x7005C190 : Word) >>> 28 ≠ 0xA := by decide

theorem witness_OpcodeFieldAloneTellsTheCommand :
    decode ⟨0x60010000, 0⟩ = .ok (.wr16 0x01 0) ∧ decode ⟨0x6002FFFF, 0⟩ = .ok (.wr16 0x02 0xFFFF) ∧
    decode ⟨0x50010000, 0⟩ = .ok (.wr8 0x01 0) := ⟨rfl, rfl, rfl⟩

/-- A bound state that is answered: PseudoInstructionsAreTheirCommands, RegisterReadsRunTheReadSequence (registers 0x00
and 0x08), RdtempReadsAndDecodes (0x02 and 0x05). -/
theorem witness_bound_and_answered :
    (answering 0x04 0x01).bound = true ∧ (answering 0x04 0x01).answer 0 = some 0 ∧
    (answering 0x04 0x01).answer 1 = some 0x04 ∧ (answering 0x04 0x01).answer 2 = some 0x01 ∧
    (0x00 : Byte).toNat ≤ 0x08 ∧ (0x08 : Byte).toNat ≤ 0x08 ∧
    (0x02 : Byte) ∈ ([0x02, 0x03, 0x04, 0x05] : List Byte) ∧ (0x05 : Byte) ∈ ([0x02, 0x03, 0x04, 0x05] : List Byte) := by
  decide

/-- One answer is enough: ProbeAsksTheBoundAddress, RegisterWritesRunTheWriteSequence, SetresWritesOnlyValidResolutions. -/
theorem witness_bound_and_acknowledged :
    (boundAt 0x18 [some 0]).bound = true ∧ (boundAt 0x18 [some 0]).answer 0 = some 0 := by decide

theorem witness_StepRunsTheDecodedCommand :
    (given (.command ⟨0xB0000000, 0⟩) State.reset).fault = 0 ∧
    (given (.command ⟨0xB0000000, 0⟩) State.reset).inputs = .command ⟨0xB0000000, 0⟩ :: [] ∧
    decode ⟨0xB0000000, 0⟩ = .ok .getstatus := ⟨rfl, rfl, rfl⟩

theorem witness_FetchWordRunsNext :
    State.reset.fault = 0 ∧ decodeTableWord 32 0xC0000003 = some (.setres 3) := by decide

/-- Halted with a command, idle, and with the reset input; codes 1 and 5. -/
theorem witness_HaltedBlockExecutesNothing :
    (given (.command ⟨0, 0⟩) (halted 1)).fault ≠ 0 ∧
    (given (.command ⟨0, 0⟩) (halted 1)).inputs = .command ⟨0, 0⟩ :: [] ∧
    (halted 5).fault ≠ 0 ∧ step (halted 5) = .next (halted 5) ∧
    (given .reset (halted 5)).inputs = .reset :: [] ∧ step (given .reset (halted 5)) = .next State.reset :=
  ⟨by decide, rfl, by decide, rfl, rfl, rfl⟩

theorem witness_ResetRestoresTheResetValues :
    (given .reset (boundAt 0x18 [])).inputs = .reset :: [] := rfl

theorem witness_IdleBlockStaysAsItIs : (boundAt 0x18 []).inputs = [] := rfl

theorem witness_StepKeepsParametersAndTakesOneInput :
    ∃ t, step (present ⟨0x20000000, 0⟩ (boundAt 0x18 [some 0])) = .next t := ⟨_, rfl⟩

/-- A command that faults, one that completes, and one that does not decode. -/
theorem witness_FaultWritesOnlyFault :
    (∃ t, exec .probe State.reset = .next t ∧ t.port = none) ∧
    (∃ t, exec .probe (boundAt 0x18 [some 0]) = .next t ∧ t.port ≠ none) ∧
    (given (.command ⟨0, 0⟩) State.reset).fault = 0 ∧ decode ⟨0, 0⟩ = .error .reservedOpcode :=
  ⟨⟨_, rfl, rfl⟩, ⟨_, rfl, by decide⟩, rfl, rfl⟩

/-- Each of the five codes is reached. -/
theorem witness_FaultCodesHaveTheirCauses :
    seen 0x00000000 0 State.reset = some (none, 1, []) ∧ seen 0x90050000 0 State.reset = some (none, 2, []) ∧
    seen 0x80000000 0xFF800000 State.reset = some (none, 3, []) ∧
    seen 0x80000000 0xC57FFE00 State.reset = some (none, 4, []) ∧
    seen 0xB0000000 0 State.reset = some (none, 5, []) := by
  and_intros <;> decide

/-- Each check of R204, met where the checks before it pass. -/
theorem witness_ChecksComeInTheOrderOfTheSpec :
    ¬ legal 0xA0050000 ∧
    wellFormed (.rd8 0x09) = true ∧ guardRejects (.rd8 0x09) ∧ guardRejects (.setres 4) ∧
    wellFormed (.rd8 0x08) = true ∧ ¬ guardRejects (.rd8 0x08) ∧ usesBus (.rd8 0x08) ∧ State.reset.bound = false ∧
    wellFormed (.wrtemp 0x04 0x7FC00000) = true ∧ floatOperand (.wrtemp 0x04 0x7FC00000) = some 0x7FC00000 ∧
    (boundAt 0x18 []).bound = true ∧ f32Value 0x7FC00000 = none ∧
    f32Value 0x457FFE00 = some (32767 * 2 ^ 146) ∧ round4 .exactHalfUp (32767 * 2 ^ 146) = some 16384 ∧
    0xFFFF < 16384 * 4 ∧
    State.reset.statusValid = false ∧ State.reset.params.statusBeforeRead = .fault := by
  unfold guardRejects usesBus
  decide

/-- The last clause of R204: a command that reaches its effects. -/
theorem witness_ChecksComeInTheOrderOfTheSpec_effects :
    reachesBus .probe (boundAt 0x18 [some 0]) ∧ floatOperand .probe = none ∧
    (∃ t, exec .probe (boundAt 0x18 [some 0]) = .next t) ∧ encodable 0x457FFDFF :=
  ⟨⟨trivial, rfl, id, rfl, by simp [floatOperand]⟩, rfl, ⟨_, rfl⟩, ⟨_, by rfl, by decide⟩⟩

theorem witness_RegOutsideTheSetIsIllegal :
    (0x01 : Byte) ∉ ([0x02, 0x03, 0x04, 0x05] : List Byte) ∧ (0x06 : Byte) ∉ ([0x02, 0x03, 0x04, 0x05] : List Byte) ∧
    (0x05 : Byte) ∉ ([0x02, 0x03, 0x04] : List Byte) := by decide

theorem witness_GuardedAccessIsANoOp : 0x08 < (0x09 : Byte).toNat ∧ 0x08 < (0xFF : Byte).toNat := by decide

/-- Both values of GUARD, and a fault. -/
theorem witness_GuardIsOneExactlyWhenAGuardRejects :
    (∃ t, exec (.rd8 0x09) State.reset = .next t ∧ t.port = some ⟨.u8 0, true⟩) ∧
    (∃ t, exec (.bind 0x20) State.reset = .next t ∧ t.port = some ⟨.bool false, false⟩) :=
  ⟨⟨_, rfl, rfl⟩, ⟨_, rfl, rfl⟩⟩

theorem witness_ResultFormIsFixedByTheCommand :
    (∃ t, exec (.rd16 0xFF) State.reset = .next t ∧ t.port = some ⟨.u16 0, true⟩) ∧
    (∃ t, exec (.rd16 0x08) State.reset = .next t ∧ t.port = none) := ⟨⟨_, rfl, rfl⟩, ⟨_, rfl, rfl⟩⟩

/-- A silent bus agent, and one that falls silent at the last answer. -/
theorem witness_CommandStopsExactlyOnASilentBus :
    exec .probe (boundAt 0x18 [none]) = .fault .busNeverAnswers ∧
    exec (.rd16 0x05) (boundAt 0x18 [some 0, some 1, none]) = .fault .busNeverAnswers := ⟨rfl, rfl⟩

/-- Both sides of both ends, and an address whose low byte alone is in range. -/
theorem witness_BindLatchesExactlyTheValidAddresses :
    (24 ≤ (0x18 : Half).toNat ∧ (0x18 : Half).toNat ≤ 31) ∧ (24 ≤ (0x1F : Half).toNat ∧ (0x1F : Half).toNat ≤ 31) ∧
    ¬ (24 ≤ (0x17 : Half).toNat ∧ (0x17 : Half).toNat ≤ 31) ∧ ¬ (24 ≤ (0x20 : Half).toNat ∧ (0x20 : Half).toNat ≤ 31) ∧
    ¬ (24 ≤ (0x118 : Half).toNat ∧ (0x118 : Half).toNat ≤ 31) := by decide

/-- Each of the four accesses completes unguarded. -/
theorem witness_UnguardedAccessEventCounts :
    (¬ guardRejects (.rd8 0x08) ∧ ∃ t, exec (.rd8 0x08) (answering 0 1) = .next t ∧ t.port ≠ none) ∧
    (¬ guardRejects (.rd16 0x00) ∧ ∃ t, exec (.rd16 0x00) (answering 0 1) = .next t ∧ t.port ≠ none) ∧
    (¬ guardRejects (.wr8 0x08 0) ∧ ∃ t, exec (.wr8 0x08 0) (answering 0 1) = .next t ∧ t.port ≠ none) ∧
    (¬ guardRejects (.wr16 0x00 0) ∧ ∃ t, exec (.wr16 0x00 0) (answering 0 1) = .next t ∧ t.port ≠ none) :=
  ⟨⟨by unfold guardRejects; decide, _, rfl, by decide⟩, ⟨by unfold guardRejects; decide, _, rfl, by decide⟩,
   ⟨by unfold guardRejects; decide, _, rfl, by decide⟩, ⟨by unfold guardRejects; decide, _, rfl, by decide⟩⟩

/-- WR16 of 0x00FF, then RD16 answered with the two bytes it sent. -/
theorem witness_ReadReturnsWhatWriteSent :
    (∃ t, exec (.wr16 0x08 0x00FF) (boundAt 0x18 [some 5]) = .next t ∧
      t.busHistory = (boundAt 0x18 [some 5]).busHistory ++
        [.beginAt 0x18, .write 0x08, .write 0x00, .write 0xFF, .ended 5]) ∧
    (answering 0x00 0xFF).bound = true ∧ (answering 0x00 0xFF).answer 0 = some 0 ∧
    (answering 0x00 0xFF).answer 1 = some 0x00 ∧ (answering 0x00 0xFF).answer 2 = some 0xFF :=
  ⟨⟨_, rfl, by decide⟩, rfl, rfl, rfl, rfl⟩

theorem witness_DecodeGivesTheTemperature :
    (0x02 : Byte) ∈ ([0x02, 0x03, 0x04, 0x05] : List Byte) ∧ (0x05 : Byte) ∈ ([0x02, 0x03, 0x04, 0x05] : List Byte) := by
  decide

/-- The greatest float below 4095.875, its negative, and -0.0: EncodeGivesTheRawValue, WrtempEncodesAndWrites. -/
theorem witness_EncodeGivesTheRawValue :
    f32Value 0x457FFDFF = some (16776703 * 2 ^ 137) ∧ 16776703 * 2 ^ 137 < encodeLimit ∧
    f32Value 0xC57FFDFF = some (-(16776703 * 2 ^ 137)) ∧ f32Value 0x80000000 = some 0 ∧ 0 < encodeLimit := by decide

theorem witness_WrtempEncodesAndWrites :
    (0x02 : Byte) ∈ ([0x02, 0x03, 0x04] : List Byte) ∧ (0x04 : Byte) ∈ ([0x02, 0x03, 0x04] : List Byte) ∧
    (boundAt 0x18 [some 0]).bound = true ∧ (boundAt 0x18 [some 0]).answer 0 = some 0 ∧
    f32Value 0x41C80000 = some (25 * 2 ^ 149) ∧ 25 * 2 ^ 149 < encodeLimit := by decide

theorem witness_GetstatusReturnsTheCapturedBits :
    ({ State.reset with status := 7, statusValid := true } : State).statusValid = true ∧
    State.reset.statusValid = false ∧ State.reset.params.statusBeforeRead = .fault ∧
    ({ State.reset with params := ⟨.f32AddFloor, .zero⟩ } : State).params.statusBeforeRead = .zero := by decide

theorem witness_SetresWritesOnlyValidResolutions :
    4 ≤ (4 : Byte).toNat ∧ 4 ≤ (255 : Byte).toNat ∧ (0 : Byte).toNat < 4 ∧ (3 : Byte).toNat < 4 := by decide

/-- A read on a failing bus, with either end status. -/
theorem witness_BusFailureIsNeverAFault :
    reachesBus (.rd8 0x08) (boundAt 0x18 [some 3, some 9]) ∧
    (∀ k < answersUsed (.rd8 0x08), (boundAt 0x18 [some 3, some 9]).answer k ≠ none) ∧
    (Instr.rd8 0x08 ≠ .probe) ∧
    (∃ t, exec (.rd8 0x08) { State.reset with bound := true, devAddr := 0x18, busScript := some 3 :: [some 9] } = .next t) ∧
    (∃ t, exec (.bind 0x18) { State.reset with busScript := some 3 :: [] } = .next t) :=
  ⟨⟨trivial, rfl, by unfold guardRejects; decide, rfl, by simp [floatOperand]⟩, by decide, by decide, ⟨_, rfl⟩,
    ⟨_, rfl⟩⟩

/-- Each register's writer, and a command that writes none. -/
theorem witness_RegistersHaveTheirWriters :
    (∃ t, exec (.bind 0x1F) State.reset = .next t ∧ t.devAddr = 0x1F) ∧
    (∃ t, exec (.decode 0x05 0xE000) State.reset = .next t ∧ t.statusValid = true) ∧
    (∃ t, exec (.encode 0) State.reset = .next t ∧ t.bound = State.reset.bound) ∧
    (answering 0 0).bound = true :=
  ⟨⟨_, rfl, by decide⟩, ⟨_, rfl, rfl⟩, ⟨_, rfl, rfl⟩, rfl⟩

theorem witness_BusHistoryIsOnlyAppendedTo :
    ∃ t, exec .probe (boundAt 0x18 [some 0]) = .next t ∧ t.busHistory = [.init, .beginAt 0x18, .ended 0] :=
  ⟨_, rfl, by decide⟩

theorem witness_ValuelessRegistersAreNeverRead :
    State.reset.bound = false ∧ State.reset.statusValid = false := by decide

theorem witness_OnlyGetstatusShowsStatus : Instr.decode 0x05 0xE000 ≠ .getstatus := by decide

/-- The reset state meets the invariant, and a step leaves it. -/
theorem witness_EveryStepKeepsTheInvariant :
    Inv (given (.command ⟨0x10000018, 0⟩) State.reset) ∧
    ∃ t, step (given (.command ⟨0x10000018, 0⟩) State.reset) = .next t :=
  ⟨{ devAddr_valid := fun h => by cases h
     fault_legal := by decide
     bus_silent := fun _ => rfl
     init_first := fun h => by cases h
     events_valid := fun e he => by cases he
     port_read := fun o ho => by cases ho
     no_output_after_fault := fun _ => rfl }, _, rfl⟩

theorem witness_PlatformMovesOneInstanceAtATime :
    (∃ q, Platform.move ⟨[State.reset, given .reset State.reset], [], 0, []⟩ 1 = .next q) ∧
    (0 : Nat) ≠ 1 ∧
    (∃ q, Platform.move ⟨[State.reset], [], 0, []⟩ 1 = .next q ∧ ([State.reset] : List State)[1]? = none) :=
  ⟨⟨_, rfl⟩, by decide, ⟨_, rfl, rfl⟩⟩

/-- Both branches of the decoder at their ends, and the zero field under the status bits. -/
theorem witness_TempDecodeIsExact :
    (0x0FFF : Half).getLsbD 12 = false ∧ (0x1000 : Half).getLsbD 12 = true ∧ (0x1FFF : Half).getLsbD 12 = true ∧
    (0xE000 : Half) &&& 0x1FFF = 0 ∧ f32Value (tempDecode 0x0FFF) = some (4095 * 2 ^ 145) ∧
    f32Value (tempDecode 0x1000) = some (-256 * 2 ^ 149) := by decide

/-- A multiple of 2^-4, and the greatest float below 0x3DFFFFFF. -/
theorem witness_RoundingSettingsAgreeAndDiffer :
    f32Value 0xBD800000 = some (-1 * 2 ^ 145) ∧ f32Finite 0x3DFFFFFE = true ∧
    f32Mag 0x3DFFFFFE < f32Mag 0x3DFFFFFF := by decide

/-- The ends of the ranges of R129: (a) 0 and 255.75, (b) the float below 255.875, (d) the least and the greatest
negative and -128.0, (e) 255.875 and the float below 256, on both sides. -/
theorem witness_RoundTripLawsOfTheCodec :
    f32Value 0x00000000 = some (((0 : Nat) : Int) * 2 ^ 147) ∧ f32Value 0x437FC000 = some (((1023 : Nat) : Int) * 2 ^ 147) ∧
    (f32Value 0x437FDFFF).any (fun v => 0 ≤ v ∧ v < 2047 * 2 ^ 146) = true ∧
    (f32Value 0x80000001).any (fun v => v < 0 ∧ -(2047 * 2 ^ 146) < v) = true ∧
    (f32Value 0xC37FDFFF).any (fun v => v < 0 ∧ -(2047 * 2 ^ 146) < v) = true ∧
    f32Value 0xC3000000 = some (-128 * 2 ^ 149) ∧
    (f32Value 0x437FE000).any (fun v => 2047 * 2 ^ 146 ≤ v.natAbs ∧ v.natAbs < 256 * 2 ^ 149) = true ∧
    (f32Value 0xC37FFFFF).any (fun v => 2047 * 2 ^ 146 ≤ v.natAbs ∧ v.natAbs < 256 * 2 ^ 149) = true := by decide

/-- Round4 at 0, 1023 and 1024, on both sides of zero. -/
theorem witness_EncoderOutputShape :
    (tempEncode .exactHalfUp 0x437FC000).toOption = some 0x0FFC ∧
    f32Value 0x437FC000 = some (1023 * 2 ^ 147) ∧ round4 .exactHalfUp (1023 * 2 ^ 147) = some 1023 ∧
    (tempEncode .f32AddFloor 0xBC23D70A).toOption = some 0x1000 ∧
    (f32Value 0xBC23D70A).any (fun v => v < 0 ∧ round4 .f32AddFloor v.natAbs = some 0) = true ∧
    (f32Value 0x437FE000).any (fun v => 0 ≤ v ∧ round4 .f32AddFloor v.natAbs = some 1024) = true := by decide

theorem witness_FloatPatternIsThatOfItsValue :
    f32Finite 0x80000000 = true ∧ f32Finite 0x007FFFFF = true ∧ f32Finite 0xFF7FFFFF = true := by decide

/-- A tie, and the two sides of overflow. -/
theorem witness_RoundingIsToNearestTiesToEven :
    rnd32 (2 ^ 24 + 1) = some (2 ^ 24) ∧ rnd32 (2 ^ 24 + 3) = some (2 ^ 24 + 4) ∧
    rnd32 ((2 ^ 25 - 1) * 2 ^ 103 * 2 ^ 149) = none ∧
    rnd32 ((2 ^ 25 - 1) * 2 ^ 103 * 2 ^ 149 - 1) = some ((2 ^ 24 - 1) * 2 ^ 253) ∧ f32Finite 0x4B800000 = true := by decide

end Sys2Proof.Tests
end

section
/-! PROOFS, family 00_scope: what a step can do, that a command only appends to the bus history, and that binary32
packing and rounding are what 00_scope.md R8 says. -/

namespace Sys2Proof.Machine

/-! ### What a step can do -/

section Step

variable {s t : State} {w : Command} {rest : List HostInput}

theorem step_idle (h : s.inputs = []) : step s = .next s := by
  rw [step, fetch_idle h]

theorem step_reset (h : s.inputs = .reset :: rest) : step s = .next (applyReset { s with inputs := rest }) := by
  rw [step, fetch_reset h]

theorem step_stuck (hf : s.fault ≠ 0) (h : s.inputs = .command w :: rest) : step s = .fault .halted := by
  rw [step, fetch_stuck hf h]

theorem step_illegal {e : DecodeError} (hf : s.fault = 0) (h : s.inputs = .command w :: rest)
    (hd : decode w = .error e) : step s = raiseFault .illegalCommand { s with inputs := rest } := by
  rw [step, fetch_illegal hf h hd]

theorem step_run {i : Instr} (hf : s.fault = 0) (h : s.inputs = .command w :: rest) (hd : decode w = .ok i) :
    step s = exec i { s with inputs := rest } := by
  rw [step, fetch_run hf h hd]

/-- All that a step which gives a next state can have done: it was idle, it took a reset, it refused an illegal word, or
it ran a decoded command. -/
theorem step_next_cases (h : step s = .next t) :
    (s.inputs = [] ∧ t = s) ∨
    (∃ rest, s.inputs = .reset :: rest ∧ t = applyReset { s with inputs := rest }) ∨
    (∃ w rest e, s.inputs = .command w :: rest ∧ s.fault = 0 ∧ decode w = .error e ∧
      t = { s with inputs := rest, fault := FaultCode.illegalCommand.code, port := none }) ∨
    (∃ w rest i, s.inputs = .command w :: rest ∧ s.fault = 0 ∧ decode w = .ok i ∧
      exec i { s with inputs := rest } = .next t) := by
  rcases port_cases s with hi | ⟨rest, hi⟩ | ⟨w, rest, hi, hf⟩ | ⟨w, rest, e, hi, hf, hd⟩ | ⟨w, rest, i, hi, hf, hd⟩
  · rw [step_idle hi] at h
    cases h
    exact .inl ⟨hi, rfl⟩
  · rw [step_reset hi] at h
    cases h
    exact .inr (.inl ⟨rest, hi, rfl⟩)
  · rw [step_stuck hf hi] at h
    cases h
  · rw [step_illegal hf hi hd] at h
    exact .inr (.inr (.inl ⟨w, rest, e, hi, hf, hd, raiseFault_next h⟩))
  · rw [step_run hf hi hd] at h
    exact .inr (.inr (.inr ⟨w, rest, i, hi, hf, hd, h⟩))

end Step

/-! ### What no command writes -/

/-- The registers a command writes are none of these fields. -/
theorem Ran.keeps {i : Instr} {s s₀ : State} {ev : List BusEvent} (h : Ran i s s₀ ev) :
    s₀.params = s.params ∧ s₀.inputs = s.inputs ∧ s₀.busScript = s.busScript ∧ s₀.busDraws = s.busDraws ∧
      s₀.busHistory = s.busHistory := by
  cases h with
  | quiet => simp
  | onBus => simp
  | latched => simp
  | captured => simp
  | sampled => simp

/-- A command keeps the parameters and the host's further inputs, draws answers from the front, and appends to the bus
history. -/
theorem exec_keeps {i : Instr} {s t : State} (h : exec i s = .next t) :
    t.params = s.params ∧ t.inputs = s.inputs ∧
      (∃ n, t.busScript = s.busScript.drop n ∧ t.busDraws = s.busDraws + n) ∧
      ∃ ev, t.busHistory = s.busHistory ++ ev := by
  rcases exec_outcomes h with ⟨c, rfl⟩ | ⟨s₀, ev, n, r, g, hr, rfl⟩
  · exact ⟨rfl, rfl, ⟨0, rfl, rfl⟩, [], (List.append_nil _).symm⟩
  · obtain ⟨hp, hi, hs, hd, hh⟩ := hr.keeps
    exact ⟨hp, hi, ⟨n, congrArg (List.drop n) hs, congrArg (· + n) hd⟩, ev, congrArg (· ++ ev) hh⟩

/-! ### A longer history before a command -/

open Sys2Proof.Certificates

/-- `s` with the events `h` before those of its bus history. -/
def State.precededBy (s : State) (h : List BusEvent) : State := { s with busHistory := h ++ s.busHistory }

section History

variable (h : List BusEvent) (s : State)

@[simp] theorem State.bound_precededBy : (s.precededBy h).bound = s.bound := rfl
@[simp] theorem State.status_precededBy : (s.precededBy h).status = s.status := rfl
@[simp] theorem State.statusValid_precededBy : (s.precededBy h).statusValid = s.statusValid := rfl
@[simp] theorem State.params_precededBy : (s.precededBy h).params = s.params := rfl
@[simp] theorem State.answer_precededBy (k : Nat) : (s.precededBy h).answer k = s.answer k := rfl
@[simp] theorem State.busAddr_precededBy : (s.precededBy h).busAddr = s.busAddr := rfl

@[simp] theorem State.latchAddress_precededBy (a : Half) :
    (s.precededBy h).latchAddress a = (s.latchAddress a).precededBy h := rfl

@[simp] theorem State.captureStatus_precededBy (st : BitVec 3) :
    (s.precededBy h).captureStatus st = (s.captureStatus st).precededBy h := rfl

@[simp] theorem State.afterBus_precededBy (ev : List BusEvent) (n : Nat) :
    (s.precededBy h).afterBus ev n = (s.afterBus ev n).precededBy h := by
  simp [State.afterBus, State.precededBy]

@[simp] theorem busInit_precededBy : busInit (s.precededBy h) = (busInit s).precededBy h := by
  simp [busInit, State.record, State.precededBy]

/-- The same outcome, with the events `h` before those of the next state's bus history. -/
abbrev precededNext : Out → Out := mapNext (·.precededBy h)

@[simp] theorem ite_precededNext (c : Prop) [Decidable c] (a b : Out) :
    (if c then precededNext h a else precededNext h b) = precededNext h (if c then a else b) :=
  (apply_ite (precededNext h) c a b).symm

@[simp] theorem complete_precededBy (r : Result) (g : Bool) :
    complete r g (s.precededBy h) = precededNext h (complete r g s) := rfl

@[simp] theorem raiseFault_precededBy (c : FaultCode) :
    raiseFault c (s.precededBy h) = precededNext h (raiseFault c s) := rfl

@[simp] theorem whenBound_precededBy (k : Out) :
    whenBound (s.precededBy h) (precededNext h k) = precededNext h (whenBound s k) := by
  cases hb : s.bound
  · rw [whenBound_unbound hb, whenBound_unbound (s := s.precededBy h) hb, raiseFault_precededBy]
  · rw [whenBound_bound hb, whenBound_bound (s := s.precededBy h) hb]

@[simp] theorem whenRegIn_precededBy (regs : List Byte) (reg : Byte) (k : Out) :
    whenRegIn regs reg (s.precededBy h) (precededNext h k) = precededNext h (whenRegIn regs reg s k) := by
  simp [whenRegIn]

@[simp] theorem whenAnswered_precededNext (a : Option Byte) (k : Byte → Out) :
    (whenAnswered a fun b => precededNext h (k b)) = precededNext h (whenAnswered a k) := by
  cases a <;> rfl

@[simp] theorem encodeTemp_precededBy (c : Word) (k : Half → Out) :
    (encodeTemp c (s.precededBy h) fun raw => precededNext h (k raw)) = precededNext h (encodeTemp c s k) := by
  cases he : tempEncode s.params.encRounding c with
  | ok raw => rw [encodeTemp_ok he, encodeTemp_ok (s := s.precededBy h) he]
  | error e => rw [encodeTemp_error he, encodeTemp_error (s := s.precededBy h) he, raiseFault_precededBy]

@[simp] theorem decodeTemp_precededBy (reg : Byte) (raw : Half) :
    decodeTemp reg raw (s.precededBy h) = precededNext h (decodeTemp reg raw s) := by
  by_cases hr : reg = Config.regAmbient <;> simp [decodeTemp, hr]

/-- No command reads the bus history: the events before it are carried over, and nothing else differs. -/
theorem exec_precededBy (i : Instr) : exec i (s.precededBy h) = precededNext h (exec i s) := by
  cases i with
  | bind a => simp [exec, execBind]
  | probe => simp [exec, execProbe_eq]
  | rd8 reg => simp [exec, execRd8_eq]
  | rd16 reg => simp [exec, execRd16_eq]
  | wr8 reg v => simp [exec, execWr8_eq]
  | wr16 reg v => simp [exec, execWr16_eq]
  | decode reg raw => simp [exec, execDecode]
  | encode c => simp [exec, execEncode]
  | rdtemp reg => simp [exec, execRdtemp_eq]
  | wrtemp reg c => simp [exec, execWrtemp_eq]
  | getstatus =>
    cases hv : s.statusValid
    · cases hp : s.params.statusBeforeRead <;> simp [exec, execGetstatus, hv, hp]
    · simp [exec, execGetstatus, hv]
  | setres v => simp [exec, execSetres_eq]

end History

/-! ### A finite pattern is determined by its sign and magnitude -/

/-- A pattern is the packing of its three fields. -/
theorem f32Bits_fields (c : Word) : f32Bits (f32Sign c) (c.extractLsb' 23 8) (c.extractLsb' 0 23) = c := by
  apply BitVec.eq_of_getLsbD_eq
  intro j hj
  simp only [f32Bits, f32Sign, BitVec.msb_eq_getLsbD_last]
  interval_cases j <;> simp

/-- Two patterns with the same sign, exponent and fraction are one. -/
theorem f32Bits_eq_of_fields {c : Word} {e f : Nat} (he : e % 2 ^ 8 = f32Exp c) (hf : f % 2 ^ 23 = f32Frac c) :
    f32Bits (f32Sign c) (BitVec.ofNat 8 e) (BitVec.ofNat 23 f) = c := by
  have h1 : BitVec.ofNat 8 e = c.extractLsb' 23 8 := BitVec.eq_of_toNat_eq (by rw [BitVec.toNat_ofNat, he]; rfl)
  have h2 : BitVec.ofNat 23 f = c.extractLsb' 0 23 := BitVec.eq_of_toNat_eq (by rw [BitVec.toNat_ofNat, hf]; rfl)
  rw [h1, h2, f32Bits_fields]

theorem f32Mag_subnormal {c : Word} (h : f32Exp c = 0) : f32Mag c = f32Frac c := if_pos h

theorem f32Mag_normal {c : Word} (h : f32Exp c ≠ 0) : f32Mag c = (2 ^ 23 + f32Frac c) * 2 ^ (f32Exp c - 1) := if_neg h

/-- A significand in the normal range times a power of two has that power's exponent. -/
theorem log2_significand_mul {p k : Nat} (h1 : 2 ^ 23 ≤ p) (h2 : p < 2 ^ 24) : (p * 2 ^ k).log2 = 23 + k := by
  apply log2_eq_of_bounds
  · rw [Nat.pow_add]
    exact Nat.mul_le_mul_right _ h1
  · rw [show 23 + k + 1 = 24 + k by omega, Nat.pow_add]
    exact Nat.mul_lt_mul_of_pos_right h2 (Nat.two_pow_pos k)

/-- The pattern of a magnitude in the normal range, by its significand and its exponent. -/
theorem f32OfMag_significand_mul (neg : Bool) {p k : Nat} (h1 : 2 ^ 23 ≤ p) (h2 : p < 2 ^ 24) :
    f32OfMag neg (p * 2 ^ k) = f32Bits neg (BitVec.ofNat 8 (k + 1)) (BitVec.ofNat 23 p) := by
  have hk : 0 < 2 ^ k := Nat.two_pow_pos k
  have hn : ¬ p * 2 ^ k < 2 ^ 23 := Nat.not_lt.2 (h1.trans (Nat.le_mul_of_pos_right p hk))
  rw [f32OfMag, if_neg hn, log2_significand_mul h1 h2, Nat.add_sub_cancel_left, Nat.mul_div_cancel _ hk]

/-- The sign and magnitude give the pattern back: its exponent and fraction are those of the significand. -/
theorem f32OfMag_f32Mag (c : Word) : f32OfMag (f32Sign c) (f32Mag c) = c := by
  have hx := f32Exp_lt c
  have hf := f32Frac_lt c
  by_cases he : f32Exp c = 0
  · rw [f32Mag_subnormal he, f32OfMag, if_pos hf]
    exact f32Bits_eq_of_fields he.symm (Nat.mod_eq_of_lt hf)
  · rw [f32Mag_normal he, f32OfMag_significand_mul _ (by omega) (by omega)]
    exact f32Bits_eq_of_fields (by omega) (by omega)

/-! ### Rounding to 24 significant bits -/

/-- The significand of any magnitude has at most 24 bits. -/
theorem significand_lt (n : Nat) : n / 2 ^ (n.log2 - 23) < 2 ^ 24 := by
  by_cases h : 2 ^ 23 ≤ n
  · exact (significand_bounds h).2
  · exact Nat.lt_of_le_of_lt (Nat.div_le_self _ _) (by omega)

/-- A significand that rounding has carried to 2^24 is 2^23 in the next binade. -/
theorem two_pow_24_mul (k : Nat) : 2 ^ 24 * 2 ^ k = 2 ^ 23 * 2 ^ (k + 1) := by
  rw [Nat.pow_succ]
  omega

/-- At most 2^24 units of a power of two, below overflow, are represented. -/
theorem f32Representable_mul_of_le {m k : Nat} (hm : m ≤ 2 ^ 24) (hk : m * 2 ^ k < f32Overflow) :
    f32Representable (m * 2 ^ k) := by
  rcases Nat.lt_or_eq_of_le hm with h | rfl
  · exact f32Representable_mul h hk
  · rw [two_pow_24_mul] at hk ⊢
    exact f32Representable_mul (by omega) hk

theorem f32Representable_roundSignificand {n : Nat} (h : roundSignificand n < f32Overflow) :
    f32Representable (roundSignificand n) := by
  have hq := significand_lt n
  rcases roundSignificand_cases n with ⟨e, -, -⟩ | ⟨e, -, -⟩
  · rw [e] at h ⊢
    exact f32Representable_mul_of_le (by omega) h
  · rw [e] at h ⊢
    exact f32Representable_mul_of_le (by omega) h

/-- The fraction of an even significand's pattern is even; of 2^24 it is 0, in the next binade. -/
theorem f32Frac_f32OfMag_even (neg : Bool) {p k : Nat} (h1 : 2 ^ 23 ≤ p) (h2 : p ≤ 2 ^ 24) (hp : p % 2 = 0) :
    f32Frac (f32OfMag neg (p * 2 ^ k)) % 2 = 0 := by
  rcases Nat.lt_or_eq_of_le h2 with h | rfl
  · rw [f32OfMag_significand_mul neg h1 h, f32Frac_f32Bits, BitVec.toNat_ofNat]
    omega
  · rw [two_pow_24_mul, f32OfMag_significand_mul neg (by omega) (by omega), f32Frac_f32Bits, BitVec.toNat_ofNat, Nat.mod_self]

/-- From 2^128 on, which binary32 no longer represents, rounding does not come back below it: the lower neighbour is 2^23
or more units of 2^254 or more. -/
theorem overflow_le_roundSignificand {n : Nat} (h : f32Overflow ≤ n) : f32Overflow ≤ roundSignificand n := by
  have h' : 2 ^ (128 + 149) ≤ n := by
    rw [Nat.pow_add]
    exact h
  have hl := le_log2_of_le h'
  have hu : 2 ^ 254 ≤ 2 ^ (n.log2 - 23) := Nat.pow_le_pow_right (by omega) (by omega)
  have hq : 2 ^ 23 ≤ n / 2 ^ (n.log2 - 23) :=
    (significand_bounds (Nat.le_trans (by simp only [f32Overflow]; omega) h)).1
  have hlo := Nat.mul_le_mul hq hu
  simp only [f32Overflow]
  rcases roundSignificand_cases n with ⟨e, -, -⟩ | ⟨e, -, -⟩
  · rw [e]
    omega
  · rw [e, Nat.add_mul]
    omega

/-- Rounding reaches 2^128 exactly from half a unit above the greatest magnitude, (2^24 - 1) * 2^104: below 2^127 it
does not, in the last binade its two neighbours tell, and from 2^128 it does. -/
theorem overflow_le_roundSignificand_iff (n : Nat) :
    f32Overflow ≤ roundSignificand n ↔ (2 ^ 25 - 1) * 2 ^ 103 * 2 ^ 149 ≤ n := by
  rcases Nat.lt_or_ge n (2 ^ 276) with hlt | hge
  · have hr : f32Representable (2 ^ 23 * 2 ^ 253) := f32Representable_mul (by omega) (by simp only [f32Overflow]; omega)
    have hle := roundSignificand_le (n := n) hr (by omega)
    simp only [f32Overflow]
    omega
  rcases Nat.lt_or_ge n f32Overflow with hlt | hge'
  · have hl : n.log2 = 276 := Nat.le_antisymm (log2_le_of_lt_overflow hlt) (le_log2_of_le hge)
    have hc := roundSignificand_cases n
    simp only [hl, Nat.reduceSub] at hc
    simp only [f32Overflow] at hlt ⊢
    omega
  · refine iff_of_true (overflow_le_roundSignificand hge') (Nat.le_trans ?_ hge')
    simp only [f32Overflow]
    omega

theorem rnd32_eq_none_iff (n : Nat) : rnd32 n = none ↔ (2 ^ 25 - 1) * 2 ^ 103 * 2 ^ 149 ≤ n := by
  rw [← overflow_le_roundSignificand_iff, rnd32]
  simp

/-- A represented magnitude is not strictly between the neighbours of `n`. -/
theorem representable_outside {M : Nat} (hM : f32Representable M) (n : Nat) :
    M ≤ n / 2 ^ (n.log2 - 23) * 2 ^ (n.log2 - 23) ∨ (n / 2 ^ (n.log2 - 23) + 1) * 2 ^ (n.log2 - 23) ≤ M := by
  by_contra! hc
  exact no_representable_between hM hc.1 hc.2

/-- A tie is between magnitudes in the normal range: below 2^24 the unit in the last place is 1. -/
theorem normal_of_tie {n : Nat} (h : 2 * (n % 2 ^ (n.log2 - 23)) = 2 ^ (n.log2 - 23)) : 2 ^ 23 ≤ n := by
  by_contra hn
  have hl := log2_lt_of_lt (by omega) (Nat.lt_of_not_le hn)
  have h0 : n.log2 - 23 = 0 := by omega
  rw [h0] at h
  omega

/-- No represented magnitude is nearer to `n` than its rounding, and of two as near the rounding has the even
fraction. -/
theorem roundSignificand_nearest (n : Nat) {M : Nat} (hM : f32Representable M) :
    ((n : Int) - roundSignificand n).natAbs ≤ ((n : Int) - M).natAbs ∧
    (((n : Int) - roundSignificand n).natAbs = ((n : Int) - M).natAbs → M ≠ roundSignificand n →
      f32Frac (f32OfMag false (roundSignificand n)) % 2 = 0) := by
  have hout := representable_outside hM n
  have hdiv := Nat.div_add_mod' n (2 ^ (n.log2 - 23))
  have hlt := Nat.mod_lt n (Nat.two_pow_pos (n.log2 - 23))
  rw [Nat.add_mul, Nat.one_mul] at hout
  rcases roundSignificand_cases n with ⟨e, hr, htie⟩ | ⟨e, hr, htie⟩
  · rw [e]
    refine ⟨by omega, fun heq hne => ?_⟩
    have ht : 2 * (n % 2 ^ (n.log2 - 23)) = 2 ^ (n.log2 - 23) := by omega
    have hq := significand_bounds (normal_of_tie ht)
    exact f32Frac_f32OfMag_even false hq.1 (by omega) (htie ht)
  · rw [e]
    refine ⟨by rw [Nat.add_mul, Nat.one_mul]; omega, fun heq hne => ?_⟩
    rw [Nat.add_mul, Nat.one_mul] at heq hne
    have ht : 2 * (n % 2 ^ (n.log2 - 23)) = 2 ^ (n.log2 - 23) := by omega
    have hq := significand_bounds (normal_of_tie ht)
    have hodd := htie ht
    exact f32Frac_f32OfMag_even false (by omega) (by omega) (by omega)

end Sys2Proof.Machine

namespace Sys2Proof.Certificates

open Sys2Proof.Machine

/-- Settles O13: each way a step can go (`step_next_cases`) keeps the parameters and the answers not yet drawn, and a
command is `exec_keeps` on the state with its input taken. -/
theorem stepKeepsParametersAndTakesOneInput : Obligations.StepKeepsParametersAndTakesOneInput := by
  intro s t h
  rcases step_next_cases h with ⟨hi, rfl⟩ | ⟨rest, hi, rfl⟩ | ⟨w, rest, e, hi, -, -, rfl⟩ | ⟨w, rest, i, hi, -, -, hx⟩
  · exact ⟨rfl, by rw [hi, List.tail_nil], 0, rfl, rfl⟩
  · exact ⟨rfl, by rw [hi]; rfl, 0, rfl, rfl⟩
  · exact ⟨rfl, by rw [hi]; rfl, 0, rfl, rfl⟩
  · obtain ⟨hp, hin, hn, -⟩ := exec_keeps hx
    exact ⟨hp, by rw [hin, hi]; rfl, hn⟩

/-- Settles O36: the first part is `exec_precededBy`, the second the last part of `exec_keeps`. -/
theorem busHistoryIsOnlyAppendedTo : Obligations.BusHistoryIsOnlyAppendedTo := by
  intro i s h
  refine ⟨exec_precededBy h s i, fun t ht => ?_⟩
  obtain ⟨-, -, -, hev⟩ := exec_keeps ht
  exact hev

/-- Settles O49: a finite pattern is rebuilt from its fields, which its magnitude gives back (`f32OfMag_f32Mag`). -/
theorem floatPatternIsThatOfItsValue : Obligations.FloatPatternIsThatOfItsValue :=
  fun c _ => f32OfMag_f32Mag c

/-- Settles O50: overflow is `rnd32_eq_none_iff`; a rounding below overflow is represented, and `roundSignificand_nearest`
compares it with the magnitude of any finite pattern. -/
theorem roundingIsToNearestTiesToEven : Obligations.RoundingIsToNearestTiesToEven := by
  refine fun n => ⟨rnd32_eq_none_iff n, fun y hy => ?_⟩
  obtain ⟨rfl, hlt⟩ := rnd32_eq_some hy
  have hr := f32Representable_roundSignificand hlt
  refine ⟨⟨f32OfMag false (roundSignificand n), f32Finite_f32OfMag false hr, f32Mag_f32OfMag false hr⟩, fun c hc => ?_⟩
  exact roundSignificand_nearest n (f32Representable_f32Mag hc)

/-- Settles O11: the reset input is taken whatever FAULT holds (`step_reset`), and `applyReset` gives each value. -/
theorem resetRestoresTheResetValues : Obligations.ResetRestoresTheResetValues := by
  refine ⟨⟨rfl, rfl, rfl, rfl, rfl⟩, fun s rest hi => ⟨_, step_reset hi, ?_⟩⟩
  simp

end Sys2Proof.Certificates
end
section
/-! PROOFS, family 10_state: the invariant of the block, which registers a command writes, the output it ends with, and
that no command reads a register before it has a value. -/

namespace Sys2Proof.Machine

open Sys2Proof.Certificates

/-! ### The codes of FAULT -/

theorem FaultCode.code_toNat_le (c : FaultCode) : c.code.toNat ≤ 5 := by
  cases c <;> decide

theorem FaultCode.code_ne_zero (c : FaultCode) : c.code ≠ 0 := by
  cases c <;> decide

/-! ### What a completed command has done, register by register -/

section Ran

variable {i : Instr} {s s₀ : State} {ev : List BusEvent}

/-- BOUND, DEVADDR and the bus: the first two are kept, and events are those of the bound sensor; or BIND has latched an
address, and `Init` is the one event. -/
theorem Ran.bus_cases (h : Ran i s s₀ ev) :
    (s₀.bound = s.bound ∧ s₀.devAddr = s.devAddr ∧
      (ev = [] ∨ s.bound = true ∧ ∀ e ∈ ev, e.AddressedTo s.busAddr)) ∨
    ∃ a, i = .bind a ∧ bindable a = true ∧ s₀.bound = true ∧ s₀.devAddr = lowByte a ∧ ev = [.init] := by
  cases h with
  | quiet => exact .inl ⟨rfl, rfl, .inl rfl⟩
  | onBus _ hb hev => exact .inl ⟨rfl, rfl, .inr ⟨hb, hev⟩⟩
  | latched a hi ha => exact .inr ⟨a, hi, ha, rfl, rfl, rfl⟩
  | captured => exact .inl ⟨rfl, rfl, .inl rfl⟩
  | sampled _ _ _ hb hev => exact .inl ⟨rfl, rfl, .inr ⟨hb, hev⟩⟩

/-- STATUS and STATUS_VALID: kept, or written by a decode of the ambient register. -/
theorem Ran.status_cases (h : Ran i s s₀ ev) :
    (s₀.status = s.status ∧ s₀.statusValid = s.statusValid) ∨
    (((∃ raw, i = .decode Config.regAmbient raw) ∨ i = .rdtemp Config.regAmbient) ∧ s₀.statusValid = true) := by
  cases h with
  | quiet => exact .inl ⟨rfl, rfl⟩
  | onBus => exact .inl ⟨rfl, rfl⟩
  | latched => exact .inl ⟨rfl, rfl⟩
  | captured raw hi => exact .inr ⟨.inl ⟨raw, hi⟩, rfl⟩
  | sampled _ _ hi => exact .inr ⟨.inr hi, rfl⟩

theorem Ran.fault_eq (h : Ran i s s₀ ev) : s₀.fault = s.fault := by
  cases h with
  | quiet => rfl
  | onBus => rfl
  | latched => rfl
  | captured => rfl
  | sampled => rfl

end Ran

/-- BIND's eight-bit latch is the operand's low byte as the statements write it. -/
theorem lowByte_eq_low (a : Half) : lowByte a = low a :=
  (BitVec.setWidth_eq_extractLsb' (by omega)).symm

/-- What a command does to BOUND and DEVADDR. -/
theorem exec_bound_devAddr {i : Instr} {s t : State} (h : exec i s = .next t) :
    (t.bound = s.bound ∧ t.devAddr = s.devAddr) ∨
    ∃ a, i = .bind a ∧ bindable a = true ∧ t.bound = true ∧ t.devAddr = lowByte a := by
  rcases exec_outcomes h with ⟨c, rfl⟩ | ⟨s₀, ev, n, r, g, hr, rfl⟩
  · exact .inl ⟨rfl, rfl⟩
  · rcases hr.bus_cases with ⟨hb, hd, -⟩ | ⟨a, hi, ha, hb, hd, -⟩
    · exact .inl ⟨hb, hd⟩
    · exact .inr ⟨a, hi, ha, hb, hd⟩

/-- What a command does to STATUS and STATUS_VALID. -/
theorem exec_status {i : Instr} {s t : State} (h : exec i s = .next t) :
    (t.status = s.status ∧ t.statusValid = s.statusValid) ∨
    (((∃ raw, i = .decode Config.regAmbient raw) ∨ i = .rdtemp Config.regAmbient) ∧ t.statusValid = true) := by
  rcases exec_outcomes h with ⟨c, rfl⟩ | ⟨s₀, ev, n, r, g, hr, rfl⟩
  · exact .inl ⟨rfl, rfl⟩
  · exact hr.status_cases

/-! ### The output a command ends with -/

/-- Every next state of `x` is `s` with a fault, or has an output as `P` says, appended to the results of `s`. -/
def EndsWith (P : Output → Prop) (s : State) (x : Out) : Prop :=
  ∀ t, x = .next t →
    (∃ c : FaultCode, t = faultedWith s c.code) ∨ ∃ o, P o ∧ t.port = some o ∧ t.results = s.results ++ [o]

section EndsWith

variable {P : Output → Prop} {s : State}

theorem endsWith_raiseFault (c : FaultCode) : EndsWith P s (raiseFault c s) :=
  fun _ h => .inl ⟨c, raiseFault_next h⟩

theorem endsWith_complete {s' : State} {r : Result} {g : Bool} (hs : s'.results = s.results) (hP : P ⟨r, g⟩) :
    EndsWith P s (complete r g s') := by
  intro t h
  rw [complete_next h]
  exact .inr ⟨⟨r, g⟩, hP, rfl, congrArg (· ++ _) hs⟩

theorem endsWith_decodeTemp {s' : State} {reg : Byte} {raw : Half} (hs : s'.results = s.results)
    (hP : P ⟨.f32 (tempDecode raw), false⟩) : EndsWith P s (decodeTemp reg raw s') := by
  rw [decodeTemp]
  split
  · exact endsWith_complete hs hP
  · exact endsWith_complete hs hP

theorem endsWith_whenBound {k : Out} (hk : EndsWith P s k) : EndsWith P s (whenBound s k) := by
  cases hb : s.bound
  · rw [whenBound_unbound hb]
    exact endsWith_raiseFault _
  · rwa [whenBound_bound hb]

theorem endsWith_whenRegIn {regs : List Byte} {reg : Byte} {k : Out} (hk : EndsWith P s k) :
    EndsWith P s (whenRegIn regs reg s k) := by
  by_cases hr : reg ∈ regs
  · rwa [whenRegIn_mem hr]
  · rw [whenRegIn_not_mem hr]
    exact endsWith_raiseFault _

theorem endsWith_encodeTemp {c : Word} {k : Half → Out} (hk : ∀ raw, EndsWith P s (k raw)) :
    EndsWith P s (encodeTemp c s k) := by
  cases he : tempEncode s.params.encRounding c with
  | ok raw =>
    rw [encodeTemp_ok he]
    exact hk raw
  | error e =>
    rw [encodeTemp_error he]
    exact endsWith_raiseFault e

theorem endsWith_whenAnswered {a : Option Byte} {k : Byte → Out} (hk : ∀ b, EndsWith P s (k b)) :
    EndsWith P s (whenAnswered a k) := by
  intro t h
  obtain ⟨b, -, hb⟩ := whenAnswered_next h
  exact hk b t hb

end EndsWith

/-- The output R62 and R28 allow the command: a result of its form, and GUARD set exactly when a guard rejects it. -/
def OutputOf (i : Instr) (o : Output) : Prop :=
  formOf o.result = tableForm i ∧ (o.guard = true ↔ guardRejects i)

theorem outputOf_rejected {i : Instr} {r : Result} (hf : formOf r = tableForm i) (h : guardRejects i) :
    OutputOf i ⟨r, true⟩ :=
  ⟨hf, iff_of_true rfl h⟩

theorem outputOf_accepted {i : Instr} {r : Result} (hf : formOf r = tableForm i) (h : ¬ guardRejects i) :
    OutputOf i ⟨r, false⟩ :=
  ⟨hf, iff_of_false Bool.false_ne_true h⟩

/-- A command whose guard is `g` completes at once with GUARD when it rejects, and otherwise goes on to its bus part. -/
theorem endsWith_guard {i : Instr} {s : State} {g : Bool} {r : Result} {k : Out} (hg : g = true ↔ guardRejects i)
    (hf : formOf r = tableForm i) (hk : ¬ guardRejects i → EndsWith (OutputOf i) s k) :
    EndsWith (OutputOf i) s (if g then complete r true s else whenBound s k) := by
  split
  case isTrue h => exact endsWith_complete rfl (outputOf_rejected hf (hg.1 h))
  case isFalse h => exact endsWith_whenBound (hk (mt hg.2 h))

/-- How any command ends: a fault, or the output its row allows. -/
theorem exec_endsWith (i : Instr) (s : State) : EndsWith (OutputOf i) s (exec i s) := by
  cases i with
  | bind a =>
    rw [exec, execBind]
    split
    · exact endsWith_complete rfl (outputOf_accepted rfl id)
    · exact endsWith_complete rfl (outputOf_accepted rfl id)
  | probe =>
    rw [exec, execProbe_eq]
    exact endsWith_whenBound <| endsWith_whenAnswered fun _ => endsWith_complete rfl (outputOf_accepted rfl id)
  | rd8 reg =>
    rw [exec, execRd8_eq]
    exact endsWith_guard (guarded_iff reg) rfl fun h => endsWith_whenAnswered fun _ => endsWith_whenAnswered fun _ =>
      endsWith_complete rfl (outputOf_accepted rfl h)
  | rd16 reg =>
    rw [exec, execRd16_eq]
    exact endsWith_guard (guarded_iff reg) rfl fun h => endsWith_whenAnswered fun _ => endsWith_whenAnswered fun _ =>
      endsWith_whenAnswered fun _ => endsWith_complete rfl (outputOf_accepted rfl h)
  | wr8 reg v =>
    rw [exec, execWr8_eq]
    exact endsWith_guard (guarded_iff reg) rfl fun h => endsWith_whenAnswered fun _ =>
      endsWith_complete rfl (outputOf_accepted rfl h)
  | wr16 reg v =>
    rw [exec, execWr16_eq]
    exact endsWith_guard (guarded_iff reg) rfl fun h => endsWith_whenAnswered fun _ =>
      endsWith_complete rfl (outputOf_accepted rfl h)
  | decode reg raw =>
    rw [exec, execDecode]
    exact endsWith_whenRegIn <| endsWith_decodeTemp rfl (outputOf_accepted rfl id)
  | encode c =>
    rw [exec, execEncode]
    exact endsWith_encodeTemp fun _ => endsWith_complete rfl (outputOf_accepted rfl id)
  | rdtemp reg =>
    rw [exec, execRdtemp_eq]
    exact endsWith_whenRegIn <| endsWith_whenBound <| endsWith_whenAnswered fun _ => endsWith_whenAnswered fun _ =>
      endsWith_whenAnswered fun _ => endsWith_decodeTemp rfl (outputOf_accepted rfl id)
  | wrtemp reg c =>
    rw [exec, execWrtemp_eq]
    exact endsWith_whenRegIn <| endsWith_whenBound <| endsWith_encodeTemp fun _ => endsWith_whenAnswered fun _ =>
      endsWith_complete rfl (outputOf_accepted rfl id)
  | getstatus =>
    rw [exec, execGetstatus]
    split
    · exact endsWith_complete rfl (outputOf_accepted rfl id)
    · split
      · exact endsWith_raiseFault _
      · exact endsWith_complete rfl (outputOf_accepted rfl id)
  | setres v =>
    rw [exec, execSetres_eq]
    exact endsWith_guard (resGuarded_iff v) rfl fun h => endsWith_whenAnswered fun _ =>
      endsWith_complete rfl (outputOf_accepted rfl h)

/-! ### A change of the state that no command reads -/

/-- `F` changes nothing a command reads: neither a parameter, an answer, BOUND or STATUS_VALID, nor DEVADDR while
BOUND = 1, nor STATUS while STATUS_VALID = 1. And it can be made before or after any operation on the state. -/
structure Unread (F : State → State) : Prop where
  params (s : State) : (F s).params = s.params
  answer (s : State) (k : Nat) : (F s).answer k = s.answer k
  bound (s : State) : (F s).bound = s.bound
  busAddr (s : State) : s.bound = true → (F s).busAddr = s.busAddr
  statusValid (s : State) : (F s).statusValid = s.statusValid
  status (s : State) : s.statusValid = true → (F s).status = s.status
  afterBus (s : State) (ev : List BusEvent) (n : Nat) : (F s).afterBus ev n = F (s.afterBus ev n)
  latchAddress (s : State) (a : Half) : (F s).latchAddress a = F (s.latchAddress a)
  captureStatus (s : State) (st : BitVec 3) : (F s).captureStatus st = F (s.captureStatus st)
  complete_map (s : State) (r : Result) (g : Bool) : complete r g (F s) = mapNext F (complete r g s)
  raiseFault_map (s : State) (c : FaultCode) : raiseFault c (F s) = mapNext F (raiseFault c s)

theorem busInit_eq_afterBus (s : State) : busInit s = s.afterBus [.init] 0 := rfl

section Unread

variable {F : State → State} (hF : Unread F) (s : State)
include hF

/-! Each operation that runs another, `k'` where `F` was made before and `k` where it was not. -/

theorem Unread.whenBound_map {k k' : Out} (hk : s.bound = true → k' = mapNext F k) :
    whenBound (F s) k' = mapNext F (whenBound s k) := by
  cases hb : s.bound
  · rw [whenBound_unbound hb, whenBound_unbound ((hF.bound s).trans hb), hF.raiseFault_map]
  · rw [whenBound_bound hb, whenBound_bound ((hF.bound s).trans hb), hk hb]

/-- A guarded access: the guard, then the bound check. -/
theorem Unread.guard_map (g : Bool) (r : Result) {k k' : Out} (hk : s.bound = true → k' = mapNext F k) :
    (if g then complete r true (F s) else whenBound (F s) k') =
      mapNext F (if g then complete r true s else whenBound s k) := by
  cases g
  · exact hF.whenBound_map s hk
  · exact hF.complete_map s r true

theorem Unread.whenRegIn_map (regs : List Byte) (reg : Byte) {k k' : Out} (hk : k' = mapNext F k) :
    whenRegIn regs reg (F s) k' = mapNext F (whenRegIn regs reg s k) := by
  by_cases hr : reg ∈ regs
  · rw [whenRegIn_mem hr, whenRegIn_mem hr, hk]
  · rw [whenRegIn_not_mem hr, whenRegIn_not_mem hr, hF.raiseFault_map]

theorem Unread.encodeTemp_map (c : Word) {k k' : Half → Out} (hk : ∀ raw, k' raw = mapNext F (k raw)) :
    encodeTemp c (F s) k' = mapNext F (encodeTemp c s k) := by
  have hp : (F s).params.encRounding = s.params.encRounding := congrArg _ (hF.params s)
  cases he : tempEncode s.params.encRounding c with
  | ok raw => rw [encodeTemp_ok he, encodeTemp_ok (hp ▸ he), hk]
  | error e => rw [encodeTemp_error he, encodeTemp_error (hp ▸ he), hF.raiseFault_map]

theorem Unread.decodeTemp_map (reg : Byte) (raw : Half) :
    decodeTemp reg raw (F s) = mapNext F (decodeTemp reg raw s) := by
  by_cases hr : reg = Config.regAmbient
  · simp only [decodeTemp, if_pos hr, hF.captureStatus, hF.complete_map]
  · simp only [decodeTemp, if_neg hr, hF.complete_map]

theorem Unread.whenAnswered_map (n : Nat) {k k' : Byte → Out} (hk : ∀ b, k' b = mapNext F (k b)) :
    whenAnswered ((F s).answer n) k' = mapNext F (whenAnswered (s.answer n) k) := by
  rw [hF.answer]
  cases s.answer n with
  | none => rfl
  | some b => exact hk b

/-- A change that no command reads comes out as it went in, whatever the command. -/
theorem Unread.exec_map (i : Instr) : exec i (F s) = mapNext F (exec i s) := by
  cases i with
  | bind a =>
    simp only [exec, execBind, busInit_eq_afterBus]
    split
    · rw [hF.latchAddress, hF.afterBus, hF.complete_map]
    · exact hF.complete_map s _ _
  | probe =>
    simp only [exec, execProbe_eq]
    refine hF.whenBound_map s fun hb => hF.whenAnswered_map s 0 fun st => ?_
    rw [hF.busAddr s hb, hF.afterBus, hF.complete_map]
  | rd8 reg =>
    simp only [exec, execRd8_eq]
    refine hF.guard_map s _ _ fun hb => hF.whenAnswered_map s 0 fun st => hF.whenAnswered_map s 1 fun b0 => ?_
    rw [hF.busAddr s hb, hF.afterBus, hF.complete_map]
  | rd16 reg =>
    simp only [exec, execRd16_eq]
    refine hF.guard_map s _ _ fun hb => hF.whenAnswered_map s 0 fun st => hF.whenAnswered_map s 1 fun b0 =>
      hF.whenAnswered_map s 2 fun b1 => ?_
    rw [hF.busAddr s hb, hF.afterBus, hF.complete_map]
  | wr8 reg v =>
    simp only [exec, execWr8_eq]
    refine hF.guard_map s _ _ fun hb => hF.whenAnswered_map s 0 fun st => ?_
    rw [hF.busAddr s hb, hF.afterBus, hF.complete_map]
  | wr16 reg v =>
    simp only [exec, execWr16_eq]
    refine hF.guard_map s _ _ fun hb => hF.whenAnswered_map s 0 fun st => ?_
    rw [hF.busAddr s hb, hF.afterBus, hF.complete_map]
  | decode reg raw => exact hF.whenRegIn_map s _ _ (hF.decodeTemp_map s reg raw)
  | encode c => exact hF.encodeTemp_map s c fun _ => hF.complete_map s _ _
  | rdtemp reg =>
    simp only [exec, execRdtemp_eq]
    refine hF.whenRegIn_map s _ _ <| hF.whenBound_map s fun hb => hF.whenAnswered_map s 0 fun st =>
      hF.whenAnswered_map s 1 fun b0 => hF.whenAnswered_map s 2 fun b1 => ?_
    rw [hF.busAddr s hb, hF.afterBus, hF.decodeTemp_map]
  | wrtemp reg c =>
    simp only [exec, execWrtemp_eq]
    refine hF.whenRegIn_map s _ _ <| hF.whenBound_map s fun hb => hF.encodeTemp_map s c fun raw =>
      hF.whenAnswered_map s 0 fun st => ?_
    rw [hF.busAddr s hb, hF.afterBus, hF.complete_map]
  | getstatus =>
    simp only [exec, execGetstatus, hF.statusValid, hF.params]
    cases hv : s.statusValid
    · cases s.params.statusBeforeRead with
      | fault => exact hF.raiseFault_map s _
      | zero => exact hF.complete_map s _ _
    · simp only [if_true, hF.status s hv, hF.complete_map]
  | setres v =>
    simp only [exec, execSetres_eq]
    refine hF.guard_map s _ _ fun hb => hF.whenAnswered_map s 0 fun st => ?_
    rw [hF.busAddr s hb, hF.afterBus, hF.complete_map]

end Unread

/-! ### The registers that have no value yet -/

/-- Another DEVADDR where BOUND = 0. -/
def State.withUnboundDevAddr (a : Byte) (s : State) : State :=
  { s with devAddr := if s.bound then s.devAddr else a }

/-- Another STATUS where STATUS_VALID = 0. -/
def State.withUnsetStatus (st : BitVec 3) (s : State) : State :=
  { s with status := if s.statusValid then s.status else st }

theorem State.withUnboundDevAddr_eq_ite (a : Byte) (s : State) :
    s.withUnboundDevAddr a = if s.bound then s else { s with devAddr := a } := by
  rw [State.withUnboundDevAddr]
  split <;> rfl

theorem State.withUnsetStatus_eq_ite (st : BitVec 3) (s : State) :
    s.withUnsetStatus st = if s.statusValid then s else { s with status := st } := by
  rw [State.withUnsetStatus]
  split <;> rfl

theorem unread_withUnboundDevAddr (a : Byte) : Unread (State.withUnboundDevAddr a) where
  params _ := rfl
  answer _ _ := rfl
  bound _ := rfl
  busAddr s hb := by rw [State.withUnboundDevAddr_eq_ite, if_pos hb]
  statusValid _ := rfl
  status _ _ := rfl
  afterBus _ _ _ := rfl
  latchAddress _ _ := rfl
  captureStatus _ _ := rfl
  complete_map _ _ _ := rfl
  raiseFault_map _ _ := rfl

theorem unread_withUnsetStatus (st : BitVec 3) : Unread (State.withUnsetStatus st) where
  params _ := rfl
  answer _ _ := rfl
  bound _ := rfl
  busAddr _ _ := rfl
  statusValid _ := rfl
  status s hv := by rw [State.withUnsetStatus_eq_ite, if_pos hv]
  afterBus _ _ _ := rfl
  latchAddress _ _ := rfl
  captureStatus _ _ := rfl
  complete_map _ _ _ := rfl
  raiseFault_map _ _ := rfl

end Sys2Proof.Machine

namespace Sys2Proof

open Sys2Proof.Machine Sys2Proof.Certificates

/-! ### The invariant -/

theorem validDevAddr_lowByte {a : Half} (h : bindable a = true) : validDevAddr (lowByte a) := by
  have ha := (bindable_iff a).1 h
  simp only [validDevAddr, lowByte_toNat, Config.devAddrMin, Config.devAddrMax]
  omega

/-- An event of a transaction with a valid address is a valid event. -/
theorem BusEvent.valid_of_addressedTo {e : BusEvent} {s : State} (hs : validDevAddr s.devAddr)
    (he : e.AddressedTo s.busAddr) : BusEvent.Valid e := by
  have ha : 24 ≤ s.busAddr.toNat ∧ s.busAddr.toNat ≤ 31 := by
    simp only [validDevAddr, Config.devAddrMin, Config.devAddrMax] at hs
    rw [busAddr_toNat]
    omega
  cases e with
  | beginAt b =>
    cases he
    exact ha
  | request b n =>
    obtain ⟨rfl, hn⟩ := he
    exact ⟨ha, hn⟩
  | init => cases he
  | write => trivial
  | ended => trivial
  | read => trivial

theorem inv_applyReset (s : State) : Inv (applyReset s) where
  devAddr_valid h := by cases h
  fault_legal := by simp
  bus_silent _ := rfl
  init_first h := by cases h
  events_valid := by simp
  port_read := by simp
  no_output_after_fault _ := rfl

/-- The host's inputs are no part of the invariant. -/
theorem Inv.withInputs {s : State} (h : Inv s) (l : List HostInput) : Inv { s with inputs := l } :=
  ⟨h.devAddr_valid, h.fault_legal, h.bus_silent, h.init_first, h.events_valid, h.port_read, h.no_output_after_fault⟩

theorem Inv.afterFault {s : State} (h : Inv s) (c : FaultCode) : Inv { s with fault := c.code, port := none } where
  devAddr_valid := h.devAddr_valid
  fault_legal := FaultCode.code_toNat_le c
  bus_silent := h.bus_silent
  init_first := h.init_first
  events_valid := h.events_valid
  port_read := by simp
  no_output_after_fault _ := rfl

/-- The part of the invariant that speaks of BOUND, DEVADDR and the bus history. -/
structure BusInv (bound : Bool) (devAddr : Byte) (history : List BusEvent) : Prop where
  devAddr_valid : bound = true → validDevAddr devAddr
  silent : bound = false → history = []
  init_first : bound = true → history.head? = some .init
  events_valid : ∀ e ∈ history, BusEvent.Valid e

theorem Inv.busInv {s : State} (h : Inv s) : BusInv s.bound s.devAddr s.busHistory :=
  ⟨h.devAddr_valid, h.bus_silent, h.init_first, h.events_valid⟩

section BusInv

variable {bound : Bool} {devAddr : Byte} {history ev : List BusEvent}

/-- Valid events of a bound block keep it. -/
theorem BusInv.append (h : BusInv bound devAddr history) (hb : bound = true) (hev : ∀ e ∈ ev, BusEvent.Valid e) :
    BusInv bound devAddr (history ++ ev) where
  devAddr_valid := h.devAddr_valid
  silent hb' := absurd (hb.symm.trans hb') Bool.noConfusion
  init_first _ := by rw [List.head?_append, h.init_first hb, Option.some_or]
  events_valid := List.forall_mem_append.2 ⟨h.events_valid, hev⟩

/-- A BIND of a valid address keeps it, whether or not the block was bound. -/
theorem BusInv.bind {a : Byte} (h : BusInv bound devAddr history) (ha : validDevAddr a) :
    BusInv true a (history ++ [.init]) where
  devAddr_valid _ := ha
  silent hb := by cases hb
  init_first _ := by
    cases bound with
    | false => rw [h.silent rfl, List.nil_append, List.head?_cons]
    | true => rw [List.head?_append, h.init_first rfl, Option.some_or]
  events_valid := List.forall_mem_append.2 ⟨h.events_valid, List.forall_mem_singleton.2 trivial⟩

end BusInv

/-- What a completed command does to BOUND, DEVADDR and the bus keeps their part of the invariant. -/
theorem Inv.busInv_afterRan {s s₀ : State} {i : Instr} {ev : List BusEvent} (h : Inv s) (hr : Ran i s s₀ ev) :
    BusInv s₀.bound s₀.devAddr (s.busHistory ++ ev) := by
  rcases hr.bus_cases with ⟨hb, hd, rfl | ⟨hbound, hev⟩⟩ | ⟨a, -, ha, hb, hd, rfl⟩
  · rw [hb, hd, List.append_nil]
    exact h.busInv
  · rw [hb, hd]
    exact h.busInv.append hbound fun e he => BusEvent.valid_of_addressedTo (h.devAddr_valid hbound) (hev e he)
  · rw [hb, hd]
    exact h.busInv.bind (validDevAddr_lowByte ha)

/-- A completed command keeps the invariant, since it starts with FAULT = 0. -/
theorem Inv.afterRan {s s₀ : State} {i : Instr} {ev : List BusEvent} (h : Inv s) (hf : s.fault = 0)
    (hr : Ran i s s₀ ev) (n : Nat) (o : Output) :
    Inv { s₀.afterBus ev n with port := some o, results := s.results ++ [o] } := by
  have hf₀ : s₀.fault = 0 := hr.fault_eq.trans hf
  obtain ⟨-, -, -, -, hh⟩ := hr.keeps
  have hbus : BusInv s₀.bound s₀.devAddr (s₀.busHistory ++ ev) := hh ▸ h.busInv_afterRan hr
  exact
    { devAddr_valid := hbus.devAddr_valid
      fault_legal := by simp [State.afterBus, hf₀]
      bus_silent := hbus.silent
      init_first := hbus.init_first
      events_valid := hbus.events_valid
      port_read := by simp
      no_output_after_fault := fun hn => absurd hf₀ hn }

/-- A command keeps the invariant. -/
theorem Inv.afterExec {s t : State} {i : Instr} (h : Inv s) (hf : s.fault = 0) (hx : exec i s = .next t) : Inv t := by
  rcases exec_outcomes hx with ⟨c, rfl⟩ | ⟨s₀, ev, n, r, g, hr, rfl⟩
  · exact h.afterFault c
  · exact h.afterRan hf hr n ⟨r, g⟩

end Sys2Proof

namespace Sys2Proof.Certificates

open Sys2Proof.Machine

/-- Settles O40: each way a step can go (`step_next_cases`) keeps the invariant: a reset sets it up anew, a fault writes
FAULT and the port alone, and a command is `Inv.afterExec` on the state with its input taken. -/
theorem everyStepKeepsTheInvariant : Obligations.EveryStepKeepsTheInvariant := by
  intro s t hs h
  rcases step_next_cases h with ⟨-, rfl⟩ | ⟨rest, -, rfl⟩ | ⟨w, rest, e, -, -, -, rfl⟩ | ⟨w, rest, i, -, hf, -, hx⟩
  · exact hs
  · exact inv_applyReset _
  · exact (hs.withInputs rest).afterFault .illegalCommand
  · exact (hs.withInputs rest).afterExec hf hx

/-- Settles O19: a state after a fault has no output, and any other has the one `exec_endsWith` describes. -/
theorem guardIsOneExactlyWhenAGuardRejects : Obligations.GuardIsOneExactlyWhenAGuardRejects := by
  intro i s t o hx ho
  rcases exec_endsWith i s t hx with ⟨c, rfl⟩ | ⟨o', ⟨-, hg⟩, ho', -⟩
  · cases ho
  · rw [ho'] at ho
    cases ho
    exact hg

/-- Settles O20: the two ends of `exec_endsWith`; no fault code is 0. -/
theorem resultFormIsFixedByTheCommand : Obligations.ResultFormIsFixedByTheCommand := by
  intro i s t hx
  rcases exec_endsWith i s t hx with ⟨c, rfl⟩ | ⟨o, ⟨hf, -⟩, ho, hres⟩
  · exact .inr ⟨c.code, c.code_ne_zero, rfl⟩
  · exact .inl ⟨o, ho, hf, hres⟩

/-- Settles O35: BOUND and DEVADDR by `exec_bound_devAddr`, STATUS and STATUS_VALID by `exec_status`; in both, what is not
kept is set. -/
theorem registersHaveTheirWriters : Obligations.RegistersHaveTheirWriters := by
  intro i s t hx
  have hbind := exec_bound_devAddr hx
  have hst := exec_status hx
  refine ⟨hbind.imp_right ?_, hst, fun hb => ?_, fun hv => ?_⟩
  · rintro ⟨a, hi, ha, hb, hd⟩
    obtain ⟨hlo, hhi⟩ := (bindable_iff a).1 ha
    exact ⟨a, hi, hlo, hhi, hb, hd.trans (lowByte_eq_low a)⟩
  · rcases hbind with ⟨hkept, -⟩ | ⟨a, -, -, hset, -⟩
    · exact hkept.trans hb
    · exact hset
  · rcases hst with ⟨-, hkept⟩ | ⟨-, hset⟩
    · exact hkept.trans hv
    · exact hset

/-- Settles O37: both changes are changes no command reads, so `Unread.exec_map` carries them through any command. -/
theorem valuelessRegistersAreNeverRead : Obligations.ValuelessRegistersAreNeverRead := by
  refine fun i s => ⟨fun hb a => ?_, fun hv st => ?_⟩
  · have h := (unread_withUnboundDevAddr a).exec_map s i
    rw [funext (State.withUnboundDevAddr_eq_ite a)] at h
    simpa only [hb, Bool.false_eq_true, if_false] using h
  · have h := (unread_withUnsetStatus st).exec_map s i
    rw [funext (State.withUnsetStatus_eq_ite st)] at h
    simpa only [hv, Bool.false_eq_true, if_false] using h

/-- Settles O12: `step_idle`. -/
theorem idleBlockStaysAsItIs : Obligations.IdleBlockStaysAsItIs :=
  fun _ h => step_idle h

/-- Settles O39: the reset state is the one the reset input gives. -/
theorem resetSatisfiesTheInvariant : Obligations.ResetSatisfiesTheInvariant :=
  inv_applyReset State.reset

end Sys2Proof.Certificates
end
section
/-! PROOFS, family 20_memory: the probe and the unguarded register accesses complete with exactly the bus sequence of
their rule. -/

namespace Sys2Proof.Machine

open Sys2Proof.Certificates

/-! ### The state after a bus sequence, in the words of the statements -/

/-- DEVADDR[6:0] as a field is the truncation the statements write. -/
theorem State.busAddr_eq_busAddressOf (s : State) : s.busAddr = busAddressOf s :=
  (BitVec.setWidth_eq_extractLsb' (by omega)).symm

/-- The byte a 16-bit write sends first is the operand's high byte as the statements write it. -/
theorem highByte_eq_high (v : Half) : highByte v = high v := by
  apply BitVec.eq_of_toNat_eq
  have := v.isLt
  simp only [highByte_toNat, high, BitVec.toNat_setWidth, BitVec.toNat_ushiftRight, Nat.shiftRight_eq_div_pow]
  omega

/-- A command that completes after a bus sequence has done that sequence and driven its outputs, nothing else. -/
theorem complete_afterBus (s : State) (ev : List BusEvent) (n : Nat) (r : Result) (g : Bool) :
    complete r g (s.afterBus ev n) = .next (completedOn s ev n r g) := rfl

/-- A guarded access whose guard passes runs its bus part while BOUND = 1. -/
theorem guard_passed_bound {g : Bool} {s : State} {r : Result} {k : Out} (hg : ¬ g = true) (hb : s.bound = true) :
    (if g then complete r true s else whenBound s k) = k := by
  rw [if_neg hg, whenBound_bound hb]

/-- R100: addresses up to 0x08 pass. -/
theorem not_guarded {reg : Byte} (hr : reg.toNat ≤ 0x08) : ¬ guarded reg = true :=
  mt (guarded_iff reg).1 hr.not_gt

/-! ### The unguarded register accesses while BOUND = 1 (20_memory.md R47, R48) -/

section Access

variable {reg : Byte} {s : State} (hr : reg.toNat ≤ 0x08) (hb : s.bound = true)
include hr hb

theorem execRd8_answered {st b0 : Byte} (h0 : s.answer 0 = some st) (h1 : s.answer 1 = some b0) :
    execRd8 reg s =
      .next (completedOn s (readSequence (busAddressOf s) reg st [b0]) 2 (.u8 b0) false) := by
  rw [execRd8_eq, guard_passed_bound (not_guarded hr) hb, h0, h1, whenAnswered_some,
    whenAnswered_some, complete_afterBus, State.busAddr_eq_busAddressOf]
  rfl

theorem execRd16_answered {st b0 b1 : Byte} (h0 : s.answer 0 = some st) (h1 : s.answer 1 = some b0)
    (h2 : s.answer 2 = some b1) :
    execRd16 reg s =
      .next (completedOn s (readSequence (busAddressOf s) reg st [b0, b1]) 3 (.u16 (b0 ++ b1)) false) := by
  rw [execRd16_eq, guard_passed_bound (not_guarded hr) hb, h0, h1, h2, whenAnswered_some,
    whenAnswered_some, whenAnswered_some, complete_afterBus, State.busAddr_eq_busAddressOf]
  rfl

theorem execWr8_answered {st : Byte} (v : Byte) (h0 : s.answer 0 = some st) :
    execWr8 reg v s = .next (completedOn s (writeSequence (busAddressOf s) reg [v] st) 1 .none false) := by
  rw [execWr8_eq, guard_passed_bound (not_guarded hr) hb, h0, whenAnswered_some,
    complete_afterBus, State.busAddr_eq_busAddressOf]
  rfl

theorem execWr16_answered {st : Byte} (v : Half) (h0 : s.answer 0 = some st) :
    execWr16 reg v s =
      .next (completedOn s (writeSequence (busAddressOf s) reg [high v, low v] st) 1 .none false) := by
  rw [execWr16_eq, guard_passed_bound (not_guarded hr) hb, h0, whenAnswered_some,
    complete_afterBus, State.busAddr_eq_busAddressOf, highByte_eq_high, lowByte_eq_low]
  rfl

end Access

end Sys2Proof.Machine

namespace Sys2Proof.Certificates

open Sys2Proof.Machine

/-- Settles O24: `execRd8_answered` and `execRd16_answered`. -/
theorem registerReadsRunTheReadSequence : Obligations.RegisterReadsRunTheReadSequence :=
  fun _ _ _ _ _ hr hb h0 h1 => ⟨execRd8_answered hr hb h0 h1, execRd16_answered hr hb h0 h1⟩

/-- Settles O25: `execWr8_answered` and `execWr16_answered`. -/
theorem registerWritesRunTheWriteSequence : Obligations.RegisterWritesRunTheWriteSequence :=
  fun _ _ v8 v16 _ hr hb h0 => ⟨execWr8_answered hr hb v8 h0, execWr16_answered hr hb v16 h0⟩

/-- Settles O23: past the bound check the probe waits for one answer (`execProbe_eq`), which it compares with 0. -/
theorem probeAsksTheBoundAddress : Obligations.ProbeAsksTheBoundAddress := by
  intro s st hb h0
  rw [exec, execProbe_eq, whenBound_bound hb, h0, whenAnswered_some, complete_afterBus,
    State.busAddr_eq_busAddressOf]
  rfl

end Sys2Proof.Certificates
end
section
/-! PROOFS, family 30_encoding: decoding inverts encoding both ways, the legal words are the rows of R62, and what a
step does with a command word. -/

namespace Sys2Proof

open Sys2Proof.Certificates

/-! ### OP tells the row (30_encoding.md R62, R76) -/

theorem opField_toNat (w : Word) : (opField w).toNat = (w >>> 28).toNat := by
  have := w.isLt
  simp only [opField, BitVec.extractLsb'_toNat, BitVec.toNat_ushiftRight, Nat.shiftRight_eq_div_pow]
  omega

theorem ushiftRight_28_eq_iff (w w' : Word) : w >>> 28 = w' >>> 28 ↔ opField w = opField w' := by
  rw [← BitVec.toNat_inj, ← opField_toNat, ← opField_toNat, BitVec.toNat_inj]

theorem opcodeOf_opField_value (o : Opcode) : opcodeOf (opField (row o).value) = some o := by
  cases o <;> rfl

/-- No two rows share an OP value. -/
theorem opcodeOf_inj {op op' : BitVec 4} {o : Opcode} (h : opcodeOf op = some o) (h' : opcodeOf op' = some o) :
    op = op' :=
  (opcodeOf_eq_some h).trans (opcodeOf_eq_some h').symm

/-- The reserved opcodes name no row (R63). -/
theorem opcodeOf_of_reserved {w : Word} (h : w >>> 28 = 0x0 ∨ w >>> 28 = 0xD ∨ w >>> 28 = 0xE ∨ w >>> 28 = 0xF) :
    opcodeOf (opField w) = none := by
  rcases h with h | h | h | h <;> simp [opcodeOf, opField_toNat, h]

theorem opcode_assembleOperands (w : Command) (o : Opcode) : opcode (assembleOperands w o) = o := by
  cases o <;> rfl

theorem opcodeOf_of_decode_ok {w : Command} {i : Instr} (h : decode w = .ok i) :
    opcodeOf (opField w.cmd) = some (opcode i) := by
  obtain ⟨o, ho, -, -, rfl⟩ := (decode_ok_iff w i).1 h
  rw [opcode_assembleOperands, ho]

/-! ### What a row's mask says of the fields (R61, R62) -/

/-- A field the mask covers wholly has the value it has in the match word. -/
theorem extractLsb'_of_masked {w m v : Word} {k n : Nat} (hm : m.extractLsb' k n = BitVec.allOnes n) (h : w &&& m = v) :
    w.extractLsb' k n = v.extractLsb' k n := by
  rw [← h, BitVec.extractLsb'_and, hm, BitVec.and_allOnes]

/-- A word whose DATA[15:8] is 0 has its 8-bit operand as DATA. -/
theorem dataField_of_high_zero {w : Word} (h : w.extractLsb' 8 8 = 0) : dataField w = dataOfByte (dataLow w) := by
  have hn : (w.extractLsb' 8 8).toNat = 0 := congrArg BitVec.toNat h
  apply BitVec.eq_of_toNat_eq
  simp only [dataOfByte, dataLow, dataField, BitVec.extractLsb'_toNat, Nat.shiftRight_eq_div_pow,
    BitVec.toNat_setWidth, BitVec.zeroExtend] at hn ⊢
  omega

section Row

variable {w : Word} {o : Opcode} (h : w &&& (row o).mask = (row o).value)
include h

theorem opField_of_row : opField w = opField (row o).value :=
  extractLsb'_of_masked (by cases o <;> rfl) h

theorem rsvField_of_row : rsvField w = 0 :=
  (extractLsb'_of_masked (by cases o <;> rfl) h).trans (by cases o <;> rfl)

theorem regField_of_row (hm : regField (row o).mask = 0xFF) : regField w = 0 :=
  (extractLsb'_of_masked hm h).trans (by cases o <;> rfl)

theorem dataField_of_row (hm : dataField (row o).mask = 0xFFFF) : dataField w = 0 :=
  (extractLsb'_of_masked hm h).trans (by cases o <;> rfl)

theorem dataField_of_row_byte (hm : (row o).mask.extractLsb' 8 8 = 0xFF) : dataField w = dataOfByte (dataLow w) :=
  dataField_of_high_zero ((extractLsb'_of_masked hm h).trans (by cases o <;> rfl))

/-- A word in a row is the packing of that row's OP and its own REG and DATA. -/
theorem cmdWord_of_row {reg : Byte} {data : Half} (hr : regField w = reg) (hd : dataField w = data) :
    cmdWord (opField (row o).value) reg data = w := by
  conv_rhs => rw [cmd_fields w, opField_of_row h, rsvField_of_row h, hr, hd]
  exact BitVec.or_zero.symm

end Row

/-- Encoding what a row's operand assembly gives packs the row's word again (R66). -/
theorem encode_assembleOperands_cmd {w : Command} {o : Opcode} (h : w.cmd &&& (row o).mask = (row o).value) :
    (encode (assembleOperands w o)).cmd = w.cmd := by
  cases o with
  | bind => exact cmdWord_of_row h (regField_of_row h rfl) rfl
  | probe => exact cmdWord_of_row h (regField_of_row h rfl) (dataField_of_row h rfl)
  | rd8 => exact cmdWord_of_row h rfl (dataField_of_row h rfl)
  | rd16 => exact cmdWord_of_row h rfl (dataField_of_row h rfl)
  | wr8 => exact cmdWord_of_row h rfl (dataField_of_row_byte h rfl)
  | wr16 => exact cmdWord_of_row h rfl rfl
  | decode => exact cmdWord_of_row h rfl rfl
  | encode => exact cmdWord_of_row h (regField_of_row h rfl) (dataField_of_row h rfl)
  | rdtemp => exact cmdWord_of_row h rfl (dataField_of_row h rfl)
  | wrtemp => exact cmdWord_of_row h rfl (dataField_of_row h rfl)
  | getstatus => exact cmdWord_of_row h (regField_of_row h rfl) (dataField_of_row h rfl)
  | setres => exact cmdWord_of_row h (regField_of_row h rfl) (dataField_of_row_byte h rfl)

/-- ENCODE and WRTEMP give back the FOP they read. -/
theorem encode_assembleOperands_fop {w : Command} {o : Opcode}
    (h : floatOperand (assembleOperands w o) ≠ none) : (encode (assembleOperands w o)).fop = w.fop := by
  cases o with
  | encode => rfl
  | wrtemp => rfl
  | _ => exact absurd rfl h

/-! ### The encoding of an instruction (R61, R66) -/

/-- `Laws.EncodedRow`, for every instruction at once. -/
theorem encodedRow (i : Instr) : Laws.EncodedRow.Statement i := by
  cases i with
  | bind addr => exact Laws.EncodedRow.bind addr
  | probe => exact Laws.EncodedRow.probe
  | rd8 reg => exact Laws.EncodedRow.rd8 reg
  | rd16 reg => exact Laws.EncodedRow.rd16 reg
  | wr8 reg v => exact Laws.EncodedRow.wr8 reg v
  | wr16 reg v => exact Laws.EncodedRow.wr16 reg v
  | decode reg raw => exact Laws.EncodedRow.decode reg raw
  | encode c => exact Laws.EncodedRow.encode c
  | rdtemp reg => exact Laws.EncodedRow.rdtemp reg
  | wrtemp reg c => exact Laws.EncodedRow.wrtemp reg c
  | getstatus => exact Laws.EncodedRow.getstatus
  | setres v => exact Laws.EncodedRow.setres v

/-- The operands are read back from the fields they were packed into. -/
theorem assembleOperands_encode (i : Instr) : assembleOperands (encode i) (opcode i) = i := by
  cases i <;> simp [assembleOperands, encode, opcode]

/-- Well-formed is what the row's REG constraint says of the operands the decoder assembles (R64(b)). -/
theorem wellFormed_assembleOperands (w : Command) (o : Opcode) :
    wellFormed (assembleOperands w o) = (row o).admits (regField w.cmd) := by
  cases o <;> rfl

theorem decode_encode {i : Instr} (h : wellFormed i = true) : decode (encode i) = .ok i := by
  obtain ⟨hop, hmatch⟩ := encodedRow i
  have hadmits : (row (opcode i)).admits (regField (encode i).cmd) = true := by
    rw [← wellFormed_assembleOperands, assembleOperands_encode, h]
  exact (decode_ok_iff _ _).2 ⟨opcode i, hop, hmatch, hadmits, assembleOperands_encode i⟩

/-! ### Which words decode, and what of a word is read (R61, R62, R65) -/

/-- Only the rows of ENCODE and WRTEMP take FOP as an operand. -/
theorem assembleOperands_fop_irrelevant (c f f' : Word) {o : Opcode} (he : o ≠ .encode) (hw : o ≠ .wrtemp) :
    assembleOperands ⟨c, f⟩ o = assembleOperands ⟨c, f'⟩ o := by
  cases o with
  | encode => exact absurd rfl he
  | wrtemp => exact absurd rfl hw
  | _ => rfl

/-- A word is in no row whose OP, as the shift of its match word, differs from the word's. -/
theorem ne_of_ushiftRight_28_ne {c : Word} {o o' : Opcode} (ho : opcodeOf (opField c) = some o)
    (h : c >>> 28 ≠ (row o').value >>> 28) : o ≠ o' := by
  rintro rfl
  exact h ((ushiftRight_28_eq_iff _ _).2 (opcodeOf_eq_some ho))

theorem exists_opcode_iff (P : Opcode → Prop) :
    (∃ o, P o) ↔ P .bind ∨ P .probe ∨ P .rd8 ∨ P .rd16 ∨ P .wr8 ∨ P .wr16 ∨ P .decode ∨ P .encode ∨ P .rdtemp ∨
      P .wrtemp ∨ P .getstatus ∨ P .setres := by
  constructor
  · rintro ⟨o, ho⟩
    cases o <;> simp only [ho, true_or, or_true]
  · rintro (h | h | h | h | h | h | h | h | h | h | h | h) <;> exact ⟨_, h⟩

theorem regOf_eq_regField (w : Word) : regOf w = regField w :=
  BitVec.setWidth_ushiftRight_eq_extractLsb

/-- `legal` writes out the rows of R62. -/
theorem legal_iff_row (w : Word) :
    legal w ↔ ∃ o, w &&& (row o).mask = (row o).value ∧ (row o).admits (regField w) = true := by
  have hall : w &&& 0xFFFFFFFF = w := BitVec.and_allOnes
  have htemp : tempRegs = [0x02, 0x03, 0x04, 0x05] := rfl
  have hthreshold : thresholdRegs = [0x02, 0x03, 0x04] := rfl
  rw [exists_opcode_iff]
  simp only [legal, row, Row.admits, regOf_eq_regField, hall, htemp, hthreshold, List.contains_iff_mem,
    and_true]

/-- The words of the table, and only they, decode (R65). -/
theorem exists_decode_ok_iff_legal (w : Command) : (∃ i, decode w = .ok i) ↔ legal w.cmd := by
  rw [legal_iff_row]
  constructor
  · rintro ⟨i, hi⟩
    obtain ⟨o, -, hmatch, hadmits, -⟩ := (decode_ok_iff w i).1 hi
    exact ⟨o, hmatch, hadmits⟩
  · rintro ⟨o, hmatch, hadmits⟩
    have ho : opcodeOf (opField w.cmd) = some o := by rw [opField_of_row hmatch, opcodeOf_opField_value]
    exact ⟨_, (decode_ok_iff w _).2 ⟨o, ho, hmatch, hadmits, rfl⟩⟩

theorem decodeTableWord_eq_some {nbits w : Nat} {i : Instr} (h : decodeTableWord nbits w = some i) :
    decode (tableCommand nbits w) = .ok i := by
  unfold decodeTableWord at h
  cases hd : decode (tableCommand nbits w) with
  | ok j =>
    rw [hd] at h
    exact congrArg Except.ok (Option.some.inj h)
  | error e =>
    rw [hd] at h
    cases h

end Sys2Proof

namespace Sys2Proof.Machine

open Sys2Proof.Certificates

/-! ### The bytes of a received u16 (R69) -/

theorem highByte_unpack16 (b0 b1 : Byte) : highByte (unpack16 b0 b1) = b0 := by
  apply BitVec.eq_of_toNat_eq
  have := b1.isLt
  rw [highByte_toNat, unpack16_toNat]
  omega

theorem lowByte_unpack16 (b0 b1 : Byte) : lowByte (unpack16 b0 b1) = b1 := by
  apply BitVec.eq_of_toNat_eq
  have := b1.isLt
  rw [lowByte_toNat, unpack16_toNat]
  omega

/-! ### A command word that is not legal -/

/-- A presented word that is not legal raises IllegalCommand, and nothing else is changed (60_exceptions.md R202). -/
theorem step_of_not_legal {s : State} {w : Command} {rest : List HostInput} (hf : s.fault = 0)
    (hi : s.inputs = .command w :: rest) (hl : ¬ legal w.cmd) :
    step s = .next (faultedWith { s with inputs := rest } 1) := by
  cases hd : decode w with
  | ok i => exact absurd ((exists_decode_ok_iff_legal w).1 ⟨i, hd⟩) hl
  | error e => exact step_illegal hf hi hd

end Sys2Proof.Machine

namespace Sys2Proof.Certificates

open Sys2Proof.Machine

/-- Settles O1: `decode_encode`. -/
theorem decodeOfEncodeIsTheInstruction : Obligations.DecodeOfEncodeIsTheInstruction :=
  fun _ => decode_encode

/-- Settles O2: an accepted word matches its row, whose constraint makes the instruction well-formed, and the encoding of
the operands the row assembles is the word. -/
theorem encodeOfDecodeIsTheCommand : Obligations.EncodeOfDecodeIsTheCommand := by
  intro w i h
  obtain ⟨o, -, hmatch, hadmits, rfl⟩ := (decode_ok_iff w i).1 h
  exact ⟨(wellFormed_assembleOperands w o).trans hadmits, encode_assembleOperands_cmd hmatch,
    encode_assembleOperands_fop⟩

/-- Settles O3: the decoder accepts the legal words alone (`exists_decode_ok_iff_legal`), and a reserved OP names no
row. -/
theorem illegalCommandsFaultAndLegalOnesDecode : Obligations.IllegalCommandsFaultAndLegalOnesDecode := by
  refine ⟨fun s w rest => step_of_not_legal, fun s w rest hf hi hop => step_of_not_legal hf hi fun hl => ?_,
    fun w => (exists_decode_ok_iff_legal w).2⟩
  obtain ⟨i, hd⟩ := (exists_decode_ok_iff_legal w).2 hl
  cases (opcodeOf_of_reserved hop).symm.trans (opcodeOf_of_decode_ok hd)

/-- Settles O4: CMD names the row, and only the two excluded rows take FOP as an operand. -/
theorem onlyEncodeAndWrtempReadFop : Obligations.OnlyEncodeAndWrtempReadFop := by
  intro c f f' he hw
  cases ho : opcodeOf (opField c) with
  | none => simp only [decode, ho]
  | some o =>
    have hargs := assembleOperands_fop_irrelevant c f f' (ne_of_ushiftRight_28_ne ho he) (ne_of_ushiftRight_28_ne ho hw)
    simp only [decode, ho, hargs]

/-- Settles O5: OP names the row of an accepted word (`opcodeOf_of_decode_ok`), and a row has one OP. -/
theorem opcodeFieldAloneTellsTheCommand : Obligations.OpcodeFieldAloneTellsTheCommand := by
  intro w w' i i' h h'
  have ho := opcodeOf_of_decode_ok h
  have ho' := opcodeOf_of_decode_ok h'
  rw [ushiftRight_28_eq_iff]
  constructor
  · intro hop
    rw [hop, ho'] at ho
    exact (Option.some.inj ho).symm
  · intro hrow
    rw [← hrow] at ho'
    exact opcodeOf_inj ho ho'

/-- Settles O6: each line of R75 and its decoding is evaluated. -/
theorem encodingExamplesOfTheSpec : Obligations.EncodingExamplesOfTheSpec := by
  unfold Obligations.EncodingExamplesOfTheSpec
  and_intros <;> decide

/-- Settles O7: the expansions are by definition and the lines of assembly are evaluated; GETDEVID and GETREV are RD16 of
an unguarded register (`execRd16_answered`), whose result is the two bytes answered. -/
theorem pseudoInstructionsAreTheirCommands : Obligations.PseudoInstructionsAreTheirCommands := by
  refine ⟨?_, ?_, fun s st b0 b1 hb h0 h1 h2 => ?_⟩
  · and_intros <;> intros <;> rfl
  · and_intros <;> decide
  · have hrd := execRd16_answered (reg := Config.regDevice) (by decide) hb h0 h1 h2
    exact ⟨_, .u16 (unpack16 b0 b1), hrd, hrd, rfl, congrArg Result.u8 (highByte_unpack16 b0 b1),
      congrArg Result.u8 (lowByte_unpack16 b0 b1)⟩

/-- Settles O8: `step_run`. -/
theorem stepRunsTheDecodedCommand : Obligations.StepRunsTheDecodedCommand :=
  fun _ _ _ _ => step_run

/-- Settles O9: presenting the table's command puts it at the head of the inputs, from which `step_run` takes it. -/
theorem fetchWordRunsNext : Obligations.FetchWordRunsNext := by
  intro s n w i hf hw
  exact step_run (s := s.withFetchWord n w) hf rfl (decodeTableWord_eq_some hw)

end Sys2Proof.Certificates
end
section
/-! PROOFS, family 40_register_access: what a register access does when its guard rejects and when it passes, and that a
read answered with the bytes of a write returns the value written. -/

namespace Sys2Proof.Machine

open Sys2Proof.Certificates

/-! ### Both ways of a guard (40_register_access.md R100, 42_control.md R144) -/

/-- A command that completes where it starts has driven its outputs, nothing else. -/
theorem complete_eq_completedOn_nil (s : State) (r : Result) (g : Bool) :
    complete r g s = .next (completedOn s [] 0 r g) := by
  rw [← complete_afterBus, State.afterBus_nil]

/-- The guard comes before the bound check (60_exceptions.md R204): a rejected command completes in every state. -/
theorem guard_rejected {g : Bool} (hg : g = true) (s : State) (r : Result) (k : Out) :
    (if g then complete r true s else whenBound s k) = .next (completedOn s [] 0 r true) := by
  rw [if_pos hg, complete_eq_completedOn_nil]

/-- A command whose guard passes faults NotBound or is its bus part. -/
theorem guard_passed_next {g : Bool} (hg : ¬ g = true) {s t : State} {r : Result} {k : Out}
    (h : (if g then complete r true s else whenBound s k) = .next t) :
    (s.bound = false ∧ t = faultedWith s 2) ∨ (s.bound = true ∧ k = .next t) := by
  cases hb : s.bound with
  | false =>
    rw [if_neg hg, whenBound_unbound hb] at h
    exact .inl ⟨rfl, raiseFault_next h⟩
  | true =>
    rw [guard_passed_bound hg hb] at h
    exact .inr ⟨rfl, h⟩

/-! ### All that an access past its guard can do (R101 to R104): fault NotBound, or complete after its sequence -/

section Access

variable {reg : Byte} {s t : State} (hr : reg.toNat ≤ 0x08)
include hr

theorem execRd8_next (h : execRd8 reg s = .next t) :
    (s.bound = false ∧ t = faultedWith s 2) ∨
    ∃ st b0, t = completedOn s (readSequence (busAddressOf s) reg st [b0]) 2 (.u8 b0) false := by
  refine (guard_passed_next (not_guarded hr) ((execRd8_eq reg s).symm.trans h)).imp_right ?_
  rintro ⟨hb, hk⟩
  obtain ⟨st, h0, hk⟩ := whenAnswered_next hk
  obtain ⟨b0, h1, -⟩ := whenAnswered_next hk
  exact ⟨st, b0, Host.Outcome.next.inj (h.symm.trans (execRd8_answered hr hb h0 h1))⟩

theorem execRd16_next (h : execRd16 reg s = .next t) :
    (s.bound = false ∧ t = faultedWith s 2) ∨
    ∃ st b0 b1, t =
      completedOn s (readSequence (busAddressOf s) reg st [b0, b1]) 3 (.u16 (b0 ++ b1)) false := by
  refine (guard_passed_next (not_guarded hr) ((execRd16_eq reg s).symm.trans h)).imp_right ?_
  rintro ⟨hb, hk⟩
  obtain ⟨st, h0, hk⟩ := whenAnswered_next hk
  obtain ⟨b0, h1, hk⟩ := whenAnswered_next hk
  obtain ⟨b1, h2, -⟩ := whenAnswered_next hk
  exact ⟨st, b0, b1, Host.Outcome.next.inj (h.symm.trans (execRd16_answered hr hb h0 h1 h2))⟩

theorem execWr8_next {v : Byte} (h : execWr8 reg v s = .next t) :
    (s.bound = false ∧ t = faultedWith s 2) ∨
    ∃ st, t = completedOn s (writeSequence (busAddressOf s) reg [v] st) 1 .none false := by
  refine (guard_passed_next (not_guarded hr) ((execWr8_eq reg v s).symm.trans h)).imp_right ?_
  rintro ⟨hb, hk⟩
  obtain ⟨st, h0, -⟩ := whenAnswered_next hk
  exact ⟨st, Host.Outcome.next.inj (h.symm.trans (execWr8_answered hr hb v h0))⟩

theorem execWr16_next {v : Half} (h : execWr16 reg v s = .next t) :
    (s.bound = false ∧ t = faultedWith s 2) ∨
    ∃ st, t = completedOn s (writeSequence (busAddressOf s) reg [high v, low v] st) 1 .none false := by
  refine (guard_passed_next (not_guarded hr) ((execWr16_eq reg v s).symm.trans h)).imp_right ?_
  rintro ⟨hb, hk⟩
  obtain ⟨st, h0, -⟩ := whenAnswered_next hk
  exact ⟨st, Host.Outcome.next.inj (h.symm.trans (execWr16_answered hr hb v h0))⟩

end Access

/-! ### The events of a sequence (20_memory.md R47, R48) -/

theorem length_readSequence (a : BitVec 7) (reg st : Byte) (data : List Byte) :
    (readSequence a reg st data).length = data.length + 4 := by
  rw [readSequence, List.length_append, List.length_map]
  exact Nat.add_comm 4 _

theorem length_writeSequence (a : BitVec 7) (reg : Byte) (data : List Byte) (st : Byte) :
    (writeSequence a reg data st).length = data.length + 3 := by
  simp [writeSequence]

theorem init_not_mem_readSequence {a : BitVec 7} {reg st : Byte} {data : List Byte} :
    BusEvent.init ∉ readSequence a reg st data := by
  simp [readSequence]

theorem init_not_mem_writeSequence {a : BitVec 7} {reg : Byte} {data : List Byte} {st : Byte} :
    BusEvent.init ∉ writeSequence a reg data st := by
  simp [writeSequence]

/-! ### The bytes of a sent u16 -/

/-- A value is its high byte before its low byte, as the statements write the two. -/
theorem high_append_low (v : Half) : high v ++ low v = v := by
  rw [← highByte_eq_high, ← lowByte_eq_low]
  exact unpack16_highByte_lowByte v

end Sys2Proof.Machine

namespace Sys2Proof.Certificates

open Sys2Proof.Machine

/-- Settles O26: a completion is no fault, so it is the completion each access's inversion lemma gives
(`execRd8_next` to `execWr16_next`), which keeps the registers and names the sequence. -/
theorem unguardedAccessEventCounts : Obligations.UnguardedAccessEventCounts := by
  intro i n hi hg s t h hp
  have hfault : ¬ (s.bound = false ∧ t = faultedWith s 2) := by
    rintro ⟨-, rfl⟩
    exact hp rfl
  suffices hev : ∃ ev m r, t = completedOn s ev m r false ∧ accessEvents (busAddressOf s) i ev ∧ ev.length = n ∧
      BusEvent.init ∉ ev by
    obtain ⟨ev, m, r, rfl, hev⟩ := hev
    exact ⟨⟨rfl, rfl, rfl, rfl, rfl⟩, ev, rfl, hev⟩
  rcases hi with ⟨reg, rfl, rfl⟩ | ⟨reg, rfl, rfl⟩ | ⟨reg, v, rfl, rfl⟩ | ⟨reg, v, rfl, rfl⟩
  · obtain ⟨st, b0, rfl⟩ := (execRd8_next (not_lt.1 hg) h).resolve_left hfault
    exact ⟨_, _, _, rfl, ⟨st, b0, rfl⟩, length_readSequence .., init_not_mem_readSequence⟩
  · obtain ⟨st, b0, b1, rfl⟩ := (execRd16_next (not_lt.1 hg) h).resolve_left hfault
    exact ⟨_, _, _, rfl, ⟨st, b0, b1, rfl⟩, length_readSequence .., init_not_mem_readSequence⟩
  · obtain ⟨st, rfl⟩ := (execWr8_next (not_lt.1 hg) h).resolve_left hfault
    exact ⟨_, _, _, rfl, ⟨st, rfl⟩, length_writeSequence .., init_not_mem_writeSequence⟩
  · obtain ⟨st, rfl⟩ := (execWr16_next (not_lt.1 hg) h).resolve_left hfault
    exact ⟨_, _, _, rfl, ⟨st, rfl⟩, length_writeSequence .., init_not_mem_writeSequence⟩

/-- Settles O27: the write's own events (`execWr16_next`) make `b0` and `b1` the high and the low byte of `v`, and the
read answered with them returns the two together (`execRd16_answered`). -/
theorem readReturnsWhatWriteSent : Obligations.ReadReturnsWhatWriteSent := by
  intro reg v s t u a b0 b1 st st' hr hb hw ht hbu h0 h1 h2
  have hfault : ¬ (s.bound = false ∧ t = faultedWith s 2) := by simp [hb]
  obtain ⟨stw, rfl⟩ := (execWr16_next hr hw).resolve_left hfault
  have hsent : writeSequence (busAddressOf s) reg [high v, low v] stw =
      [.beginAt a, .write reg, .write b0, .write b1, .ended st] := List.append_cancel_left ht
  obtain ⟨-, rfl, rfl, -⟩ : busAddressOf s = a ∧ high v = b0 ∧ low v = b1 ∧ stw = st := by
    simpa [writeSequence] using hsent
  refine ⟨_, execRd16_answered hr hbu h0 h1 h2, ?_⟩
  rw [high_append_low]
  rfl

/-- Settles O18: each access is its guard before its bus part, and `guard_rejected` says what a rejection does. -/
theorem guardedAccessIsANoOp : Obligations.GuardedAccessIsANoOp := by
  intro reg s hr
  have hg := (guarded_iff reg).2 hr
  simp only [exec, execRd8_eq, execRd16_eq, execWr8_eq, execWr16_eq, guard_rejected hg, implies_true, and_self]

end Sys2Proof.Certificates
end
section
/-! PROOFS, family 41_temperature_codec: the temperature commands complete as their rules say, and what the decoder
and the encoder give. -/

namespace Sys2Proof.Machine

open Sys2Proof.Certificates

/-! ### The status bits (41_temperature_codec.md R122) -/

theorem statusOf_eq_extractLsb' (raw : Half) : statusOf raw = raw.extractLsb' 13 3 := by
  apply BitVec.eq_of_toNat_eq
  have := raw.isLt
  rw [statusOf_toNat, BitVec.extractLsb'_toNat, Nat.shiftRight_eq_div_pow]
  omega

/-- The field as what is left of the value when it is shifted down. -/
theorem statusOf_eq_ushiftRight (raw : Half) : statusOf raw = (raw >>> 13).setWidth 3 := by
  apply BitVec.eq_of_toNat_eq
  have := raw.isLt
  rw [statusOf_toNat, BitVec.toNat_setWidth, BitVec.toNat_ushiftRight, Nat.shiftRight_eq_div_pow]
  omega

/-! ### How DECODE and RDTEMP end (R123) -/

/-- The capture of R123 is for the ambient register alone, as the statements write it. -/
theorem captureStatus_ambient (s : State) (reg : Byte) (raw : Half) :
    (if reg = Config.regAmbient then s.captureStatus (statusOf raw) else s) = afterDecode s reg raw := by
  rw [statusOf_eq_ushiftRight]
  rfl

/-- The capture is no bus event and draws no answer. -/
theorem afterDecode_afterBus (s : State) (reg : Byte) (raw : Half) (ev : List BusEvent) (n : Nat) :
    afterDecode (s.afterBus ev n) reg raw = (afterDecode s reg raw).afterBus ev n := by
  rw [afterDecode, afterDecode]
  split <;> rfl

/-- Decoding after a bus sequence gives the temperature and the capture, nothing else. -/
theorem decodeTemp_afterBus (s : State) (reg : Byte) (raw : Half) (ev : List BusEvent) (n : Nat) :
    decodeTemp reg raw (s.afterBus ev n) =
      .next (completedOn (afterDecode s reg raw) ev n (.f32 (tempDecode raw)) false) := by
  rw [decodeTemp, captureStatus_ambient, afterDecode_afterBus, complete_afterBus]

theorem decodeTemp_eq (s : State) (reg : Byte) (raw : Half) :
    decodeTemp reg raw s = .next (completedOn (afterDecode s reg raw) [] 0 (.f32 (tempDecode raw)) false) := by
  rw [← decodeTemp_afterBus, State.afterBus_nil]

/-! ### The decoder's value (R120, R121) -/

theorem getLsbD_12_iff (raw : Half) : raw.getLsbD 12 = true ↔ 4096 ≤ raw.toNat % 8192 := by
  rw [BitVec.getLsbD, Nat.testBit_eq_decide_div_mod_eq, decide_eq_true_iff]
  omega

/-- The low 13 bits read in two's complement. -/
theorem toInt_setWidth_13 (raw : Half) :
    (raw.setWidth 13).toInt =
      ((raw.toNat % 8192 : Nat) : Int) - if 4096 ≤ raw.toNat % 8192 then 8192 else 0 := by
  rw [BitVec.toInt_eq_toNat_cond, BitVec.toNat_setWidth]
  split <;> split <;> omega

/-- R121: the exact value is the two's-complement value of the low 13 bits, in sixteenths. -/
theorem tempValue_eq_toInt (raw : Half) : tempValue raw = (raw.setWidth 13).toInt * 2 ^ 145 := by
  have hbit := getLsbD_12_iff raw
  rw [toInt_setWidth_13]
  rcases tempValue_cases raw with ⟨h12, hv⟩ | ⟨h12, hv⟩
  · have hge := hbit.1 h12
    rw [hv, BitVec.toNat_setWidth, if_pos hge]
    omega
  · have hlt := mt hbit.2 (Bool.eq_false_iff.1 h12)
    rw [hv, BitVec.toNat_setWidth, if_neg hlt]
    omega

theorem setWidth_13_and_low (raw : Half) : (raw &&& 0x1FFF).setWidth 13 = raw.setWidth 13 := by
  apply BitVec.eq_of_getLsbD_eq
  intro j hj
  interval_cases j <;> simp

/-- Bits 15:13 do not affect the temperature (R120). -/
theorem tempDecode_and_low (raw : Half) : tempDecode (raw &&& 0x1FFF) = tempDecode raw := by
  rw [tempDecode, tempDecode, tempValue_eq_toInt, tempValue_eq_toInt, setWidth_13_and_low]

/-- The value 0 is given as +0.0. -/
theorem tempDecode_of_tempValue_eq_zero {raw : Half} (h : tempValue raw = 0) : tempDecode raw = 0 := by
  rw [tempDecode, h]
  decide

/-- The magnitude of the decoder's float is that of the exact value, a whole number of sixteenths. -/
theorem f32Mag_tempDecode (raw : Half) : f32Mag (tempDecode raw) = (raw.setWidth 13).toInt.natAbs * 2 ^ 145 := by
  obtain ⟨-, hm, -⟩ := f32Value_eq_some (f32Value_tempDecode raw)
  rw [hm, tempValue_eq_toInt]
  omega

/-- A float of exponent 0 is a multiple of 2^-149 less than 2^-126, so here it is 0: the decoder gives no subnormal
(R120). -/
theorem tempDecode_eq_zero_of_f32Exp {raw : Half} (h : f32Exp (tempDecode raw) = 0) : tempDecode raw = 0 := by
  apply tempDecode_of_tempValue_eq_zero
  have hm := f32Mag_tempDecode raw
  have hf := f32Frac_lt (tempDecode raw)
  rw [f32Mag_subnormal h] at hm
  rw [tempValue_eq_toInt]
  omega

theorem tempDecode_ne_negative_zero (raw : Half) : tempDecode raw ≠ 0x80000000 := by
  intro h
  have h0 : tempDecode raw = 0 := tempDecode_eq_zero_of_f32Exp (by rw [h]; decide)
  rw [h] at h0
  exact absurd h0 (by decide)

/-! ### All that TempEncode can do, by the value of its operand (R125, R127) -/

section Encode

variable (p : EncRounding) {c : Word} {v : Int}

theorem tempEncode_of_nonfinite (h : f32Value c = none) : tempEncode p c = .error .encodeNonFinite := by
  rw [tempEncode, f32Value_eq_none.1 h]
  rfl

/-- `tempEncode_cases` for a finite value, in the words of the statements. -/
theorem tempEncode_of_finite (hv : f32Value c = some v) :
    (encodeLimit ≤ v.natAbs ∧ tempEncode p c = .error .encodeRange) ∨
    (v.natAbs < encodeLimit ∧
      ∃ q, round4 p v.natAbs = some q ∧ q ≤ 16383 ∧ tempEncode p c = .ok (encodedValue v q)) := by
  have h := tempEncode_cases p c
  rw [hv] at h
  rcases h with ⟨⟨⟩, -⟩ | ⟨_, ⟨⟩, hge, he⟩ | ⟨_, q, ⟨⟩, hlt, hq, hle, he⟩
  · exact .inl ⟨hge, he⟩
  · exact .inr ⟨hlt, q, hq, hle, he⟩

theorem tempEncode_of_lt (hv : f32Value c = some v) (hl : v.natAbs < encodeLimit) :
    ∃ q, round4 p v.natAbs = some q ∧ q ≤ 16383 ∧ tempEncode p c = .ok (encodedValue v q) :=
  ((tempEncode_of_finite p hv).resolve_left fun h => absurd hl h.1.not_gt).2

theorem tempEncode_of_ge (hv : f32Value c = some v) (hl : encodeLimit ≤ v.natAbs) :
    tempEncode p c = .error .encodeRange :=
  ((tempEncode_of_finite p hv).resolve_right fun h => absurd h.1 hl.not_gt).2

end Encode

variable {p : EncRounding} {c : Word} {v : Int} {q : Nat}

/-- A raw value is that of what Round4 gives, at most 16383. -/
theorem eq_encodedValue_of_tempEncode {raw : Half} (he : tempEncode p c = .ok raw) (hv : f32Value c = some v)
    (hq : round4 p v.natAbs = some q) : raw = encodedValue v q ∧ q ≤ 16383 := by
  rcases tempEncode_of_finite p hv with ⟨-, he'⟩ | ⟨-, q', hq', hle, he'⟩
  · rw [he] at he'
    cases he'
  · rw [hq] at hq'
    cases hq'
    rw [he] at he'
    cases he'
    exact ⟨rfl, hle⟩

/-! ### The raw value (R125, R130) -/

/-- The sign bit is ORed in last, over a bit 12 that the magnitude may have set. -/
theorem toNat_encodedValue (hq : q ≤ 16383) :
    (encodedValue v q).toNat = if v < 0 then q * 4 ||| 4096 else q * 4 := by
  have hm : q * 4 % 2 ^ 16 = q * 4 := Nat.mod_eq_of_lt (by omega)
  rw [encodedValue]
  split
  · rw [BitVec.toNat_or, BitVec.toNat_ofNat, hm]
    rfl
  · rw [BitVec.toNat_ofNat, hm]

/-- A magnitude below bit 12 leaves that bit to the sign. -/
theorem toNat_encodedValue_of_le (hq : q ≤ 1023) :
    (encodedValue v q).toNat = if v < 0 then q * 4 + 4096 else q * 4 := by
  have hor : 4096 + q * 4 = 4096 ||| q * 4 := Nat.two_pow_add_eq_or_of_lt (i := 12) (by omega) 1
  rw [toNat_encodedValue (by omega), Nat.or_comm, ← hor, Nat.add_comm]

/-! The two fields of R130, as arithmetic. -/

theorem and_low_two_bits_eq_zero {raw : Half} (h : raw.toNat % 4 = 0) : raw &&& 0x0003 = 0 := by
  apply BitVec.eq_of_toNat_eq
  rw [BitVec.toNat_and]
  exact (Nat.and_two_pow_sub_one_eq_mod raw.toNat 2).trans h

theorem and_high_nibble (raw : Half) : raw &&& (0xF000 : Half) = (raw >>> 12) <<< 12 := by
  apply BitVec.eq_of_getLsbD_eq
  intro j hj
  interval_cases j <;> simp

theorem encodedValue_low_two_bits (hq : q ≤ 16383) : encodedValue v q &&& 0x0003 = 0 := by
  apply and_low_two_bits_eq_zero
  rw [toNat_encodedValue hq]
  split
  · rw [Nat.or_mod_two_pow (n := 2)]
    simp
  · omega

theorem encodedValue_high_nibble (hq : q ≤ 1023) :
    encodedValue v q &&& 0xF000 = if v < 0 then 0x1000 else 0 := by
  rw [and_high_nibble]
  apply BitVec.eq_of_toNat_eq
  rw [BitVec.toNat_shiftLeft, BitVec.toNat_ushiftRight, toNat_encodedValue_of_le hq,
    Nat.shiftRight_eq_div_pow, Nat.shiftLeft_eq]
  split
  · rw [show (q * 4 + 4096) / 2 ^ 12 = 1 by omega]
    rfl
  · rw [show q * 4 / 2 ^ 12 = 0 by omega]
    rfl

/-- R129: decoding an encoded value below 255.875 in magnitude: the sign bit, read in two's complement, takes off
256. -/
theorem tempValue_encodedValue (hq : q ≤ 1023) :
    tempValue (encodedValue v q) = (q : Int) * 2 ^ 147 - if v < 0 then 256 * 2 ^ 149 else 0 := by
  rw [tempValue_eq_toInt, toInt_setWidth_13, toNat_encodedValue_of_le hq]
  by_cases h : v < 0
  · rw [if_pos h, if_pos h, if_pos (by omega)]
    omega
  · rw [if_neg h, if_neg h, if_neg (by omega)]
    omega

/-! ### Round4 under EXACT_HALF_UP (R126) -/

theorem round4_exactHalfUp_eq_some_iff {m : Nat} :
    round4 .exactHalfUp m = some q ↔ q * 2 ^ 149 ≤ 4 * m + 2 ^ 148 ∧ 4 * m + 2 ^ 148 < (q + 1) * 2 ^ 149 := by
  rw [round4_exactHalfUp, Option.some_inj]
  omega

/-- R129: below 255.875 the encoder gives at most ten bits of magnitude, which decode as they stand, less 256 where the
sign bit is set. -/
theorem roundTrip_exactHalfUp (hv : f32Value c = some v) (hl : v.natAbs < 2047 * 2 ^ 146) :
    ∃ (raw : Half) (q : Nat), tempEncode .exactHalfUp c = .ok raw ∧ round4 .exactHalfUp v.natAbs = some q ∧
      f32Value (tempDecode raw) = some ((q : Int) * 2 ^ 147 - if v < 0 then 256 * 2 ^ 149 else 0) ∧
      q * 2 ^ 149 ≤ 4 * v.natAbs + 2 ^ 148 ∧ 4 * v.natAbs + 2 ^ 148 < (q + 1) * 2 ^ 149 := by
  obtain ⟨q, hq, -, he⟩ := tempEncode_of_lt .exactHalfUp hv (by simp only [encodeLimit]; omega)
  have hb := round4_exactHalfUp_eq_some_iff.1 hq
  refine ⟨_, q, he, hq, ?_, hb⟩
  rw [f32Value_tempDecode, tempValue_encodedValue (by omega)]

/-! ### Round4 under F32_ADD_FLOOR (R126) -/

theorem scaledUp_eq (m : Nat) : scaledUp m = rnd32 (4 * m) := rfl

theorem halfAdded_eq (x : Nat) : halfAdded x = rnd32 (x + 2 ^ 148) := rfl

theorem floorUnits_eq (n : Nat) : floorUnits n = n / 2 ^ 149 := rfl

/-- Where the sum is a binary32 value no rounding happens, and the two settings agree. -/
theorem round4_f32AddFloor_eq_exactHalfUp {m : Nat} (hm : f32Representable m)
    (hs : f32Representable (4 * m + 2 ^ 148)) : round4 .f32AddFloor m = round4 .exactHalfUp m := by
  have hb : 4 * m < f32Overflow := Nat.lt_of_le_of_lt (Nat.le_add_right _ _) hs.2
  rw [round4_exactHalfUp]
  exact round4_f32AddFloor_iff.2 ⟨4 * m, _, scaledUp_exact hm hb, rnd32_exact hs, rfl⟩

/-- On the grid of 2^-4 the sum is a whole number of quarters. -/
theorem f32Representable_sum_of_grid {j : Nat} (hj : j + 2 < 2 ^ 24) :
    f32Representable (4 * (j * 2 ^ 145) + 2 ^ 148) := by
  rw [show 4 * (j * 2 ^ 145) + 2 ^ 148 = (j + 2) * 2 ^ 147 by omega]
  exact f32Representable_mul hj (by simp only [f32Overflow]; omega)

/-- On the grid of 2^-4, below 4095.875, Round4 does not depend on the setting. -/
theorem round4_grid (p : EncRounding) {j : Nat} (hj : j * 2 ^ 145 < encodeLimit) :
    round4 p (j * 2 ^ 145) = round4 .exactHalfUp (j * 2 ^ 145) := by
  have hj24 : j + 2 < 2 ^ 24 := by
    simp only [encodeLimit] at hj
    omega
  cases p with
  | exactHalfUp => rfl
  | f32AddFloor =>
    exact round4_f32AddFloor_eq_exactHalfUp (f32Representable_sixteenths (by omega))
      (f32Representable_sum_of_grid hj24)

/-- 0x3DFFFFFF is the greatest float below 1/8, 2^24 - 1 units of 2^-27. -/
theorem f32Mag_3DFFFFFF : f32Mag 0x3DFFFFFF = (2 ^ 24 - 1) * 2 ^ 122 := by decide

/-- A magnitude below that of 0x3DFFFFFF is at least one place less, so four times it and the half are at most the
greatest float below 1. -/
theorem four_mul_add_half_le {m : Nat} (hm : f32Representable m) (h : m < (2 ^ 24 - 1) * 2 ^ 122) :
    4 * m + f32Half ≤ (2 ^ 24 - 1) * 2 ^ 125 := by
  simp only [f32Half]
  rcases Nat.lt_or_ge m (2 ^ 145) with hlt | hge
  · omega
  · have hd := hm.1
    rw [log2_eq_of_bounds hge (by omega)] at hd
    omega

/-- Below 0x3DFFFFFF both settings give 0. -/
theorem round4_eq_zero (p : EncRounding) {m : Nat} (hm : f32Representable m) (h : m < (2 ^ 24 - 1) * 2 ^ 122) :
    round4 p m = some 0 := by
  cases p with
  | exactHalfUp => exact round4_exactHalfUp_eq_some_iff.2 (by omega)
  | f32AddFloor =>
    have hr : f32Representable ((2 ^ 24 - 1) * 2 ^ 125) :=
      f32Representable_mul (by omega) (by simp only [f32Overflow]; omega)
    obtain ⟨y, hy, hle⟩ := rnd32_le hr (four_mul_add_half_le hm h)
    refine round4_f32AddFloor_iff.2 ⟨4 * m, y, scaledUp_exact hm (by simp only [f32Overflow]; omega), hy, ?_⟩
    exact Nat.le_zero.1 (floorUnits_le (by omega))

end Sys2Proof.Machine

namespace Sys2Proof.Certificates

open Sys2Proof.Machine

/-- Settles O29: past its two checks RDTEMP waits for RD16's three answers (`execRdtemp_eq`) and decodes their bytes
(`decodeTemp_afterBus`). -/
theorem rdtempReadsAndDecodes : Obligations.RdtempReadsAndDecodes := by
  intro reg st b0 b1 s hr hb h0 h1 h2
  rw [exec, execRdtemp_eq, whenRegIn_mem (regs := tempRegs) hr, whenBound_bound hb, h0, h1, h2,
    whenAnswered_some, whenAnswered_some, whenAnswered_some, decodeTemp_afterBus, State.busAddr_eq_busAddressOf]
  rfl

/-- Settles O30: `tempEncode_of_lt` gives the raw value, with which ENCODE completes. -/
theorem encodeGivesTheRawValue : Obligations.EncodeGivesTheRawValue := by
  intro c v s hv hl
  obtain ⟨q, hq, hle, he⟩ := tempEncode_of_lt s.params.encRounding hv hl
  refine ⟨q, hq, by omega, ?_⟩
  rw [exec, execEncode, encodeTemp_ok he, complete_eq_completedOn_nil]

/-- Settles O31: `tempEncode_of_lt` gives the raw value, which is sent as WR16 sends it (`execWrtemp_eq`). -/
theorem wrtempEncodesAndWrites : Obligations.WrtempEncodesAndWrites := by
  intro reg st c v s hr hb h0 hv hl
  obtain ⟨q, hq, hle, he⟩ := tempEncode_of_lt s.params.encRounding hv hl
  refine ⟨q, hq, by omega, ?_⟩
  rw [exec, execWrtemp_eq, whenRegIn_mem (regs := thresholdRegs) hr, whenBound_bound hb, encodeTemp_ok he, h0,
    whenAnswered_some, complete_afterBus, State.busAddr_eq_busAddressOf, highByte_eq_high, lowByte_eq_low]
  rfl

/-- Settles O42: the value and its range are those of `tempValue_cases`; the rest follows from the value being a whole
number of sixteenths. -/
theorem tempDecodeIsExact : Obligations.TempDecodeIsExact := by
  intro raw
  have hk := (raw.setWidth 12).isLt
  refine ⟨?_, (tempDecode_and_low raw).symm, fun v hv => ?_, fun h => ?_, tempDecode_ne_negative_zero raw, ?_⟩
  · rw [f32Value_tempDecode]
    rcases tempValue_cases raw with ⟨h12, hv⟩ | ⟨h12, hv⟩
    · rw [hv, if_pos h12]
    · rw [hv, if_neg (Bool.eq_false_iff.1 h12)]
  · obtain rfl : tempValue raw = v := Option.some.inj ((f32Value_tempDecode raw).symm.trans hv)
    rcases tempValue_cases raw with ⟨h12, hv⟩ | ⟨h12, hv⟩
    · rw [h12, hv]
      exact ⟨nofun, fun _ => by omega⟩
    · rw [h12, hv]
      exact ⟨fun _ => by omega, nofun⟩
  · rw [← tempDecode_and_low, h]
    decide
  · exact (em' _).imp_right tempDecode_eq_zero_of_f32Exp

/-- Settles O43: the decoder's float has the exact value of R120, which is the two's-complement value
(`tempValue_eq_toInt`). -/
theorem tempDecodeIsTwosComplement : Obligations.TempDecodeIsTwosComplement := by
  intro raw
  rw [f32Value_tempDecode, tempValue_eq_toInt]

/-- Settles O45: the value of the operand, none, below 4095.875 or not, tells what TempEncode gives. -/
theorem tempEncodeFaultsExactlyOutsideItsRange : Obligations.TempEncodeFaultsExactlyOutsideItsRange := by
  intro p c
  cases hv : f32Value c with
  | none => simp [tempEncode_of_nonfinite p hv, encodable, hv]
  | some v =>
    rcases tempEncode_of_finite p hv with ⟨hl, he⟩ | ⟨hl, q, -, -, he⟩
    · simp [he, encodable, hv, hl]
    · simp [he, encodable, hv, hl]

/-- Settles O46: the formulas are the settings' own; on the grid of 2^-4 they agree by `round4_grid`, below 0x3DFFFFFF
both give 0 (`round4_eq_zero`), and there the sum ties and rounds up to 1. -/
theorem roundingSettingsAgreeAndDiffer : Obligations.RoundingSettingsAgreeAndDiffer := by
  refine ⟨fun m => ⟨_, rfl, round4_exactHalfUp_eq_some_iff.1 rfl⟩, fun m q => ?_, fun c v j hv hj => ?_,
    fun c hc hlt => ?_, by decide, by decide⟩
  · simp only [round4_f32AddFloor_iff, scaledUp_eq, halfAdded_eq, floorUnits_eq, eq_comm (a := q)]
  · rcases Nat.lt_or_ge v.natAbs encodeLimit with hl | hl
    · have hgrid : v.natAbs = j.natAbs * 2 ^ 145 := by omega
      obtain ⟨q, hq, -, he⟩ := tempEncode_of_lt .exactHalfUp hv hl
      obtain ⟨q', hq', -, he'⟩ := tempEncode_of_lt .f32AddFloor hv hl
      rw [hgrid, round4_grid _ (hgrid ▸ hl), ← hgrid, hq] at hq'
      cases hq'
      rw [he, he']
    · rw [tempEncode_of_ge _ hv hl, tempEncode_of_ge _ hv hl]
  · rw [f32Mag_3DFFFFFF] at hlt
    have hm := f32Representable_f32Mag hc
    rw [round4_eq_zero _ hm hlt, round4_eq_zero _ hm hlt]

/-- Settles O47: (a), (b) and (d) are `roundTrip_exactHalfUp` with the arithmetic of the rounding; (c) is a fixed
pattern; in (e) Round4 is 1024, whose one bit is bit 12. -/
theorem roundTripLawsOfTheCodec : Obligations.RoundTripLawsOfTheCodec := by
  refine ⟨fun c j hj hv => ?_, fun c v hv h0 hl => ?_, ⟨0, by decide, by decide⟩, fun c v hv h0 hl => ?_,
    fun c v hv hlo hhi => ⟨?_, by decide⟩⟩
  · obtain ⟨raw, q, he, -, hd, hlo, hhi⟩ := roundTrip_exactHalfUp hv (by omega)
    refine ⟨raw, he, ?_⟩
    rw [hd, hv, if_neg (by omega), Option.some_inj]
    omega
  · obtain ⟨raw, q, he, hq, hd, hlo, hhi⟩ := roundTrip_exactHalfUp hv (by omega)
    rw [if_neg (by omega), sub_zero] at hd
    exact ⟨raw, q, he, hq, hd, by omega, by omega⟩
  · obtain ⟨raw, q, he, hq, hd, hlo, hhi⟩ := roundTrip_exactHalfUp hv (by omega)
    rw [if_pos h0] at hd
    exact ⟨raw, q, he, hq, hd, by omega⟩
  · obtain ⟨q, hq, -, he⟩ := tempEncode_of_lt .exactHalfUp hv (by simp only [encodeLimit]; omega)
    have hb := round4_exactHalfUp_eq_some_iff.1 hq
    obtain rfl : q = 1024 := by omega
    rw [he, encodedValue]
    split <;> rfl

/-- Settles O48: what the encoder gives is `encodedValue`, whose two low bits and high nibble are known. -/
theorem encoderOutputShape : Obligations.EncoderOutputShape := by
  intro p c raw v q he hv hq
  obtain ⟨rfl, hle⟩ := eq_encodedValue_of_tempEncode he hv hq
  refine ⟨encodedValue_low_two_bits hle, fun hq => ⟨fun h0 => ?_, fun h0 => ?_⟩⟩
  · rw [encodedValue_high_nibble hq, if_neg h0.not_gt]
  · rw [encodedValue_high_nibble hq, if_pos h0]

/-- Settles O17: the check of REG comes first in each of the three meanings. -/
theorem regOutsideTheSetIsIllegal : Obligations.RegOutsideTheSetIsIllegal :=
  fun _ s => ⟨fun hr => ⟨fun _ => whenRegIn_not_mem hr s _, whenRegIn_not_mem hr s _⟩,
    fun hr _ => whenRegIn_not_mem hr s _⟩

/-- Settles O28: past the check of REG, DECODE is `decodeTemp_eq`. -/
theorem decodeGivesTheTemperature : Obligations.DecodeGivesTheTemperature := by
  intro reg raw s hr
  rw [exec, execDecode, whenRegIn_mem (regs := tempRegs) hr, decodeTemp_eq]

/-- Settles O44: the formula is the definition's own, the field `statusOf_eq_extractLsb'`. -/
theorem statusOfIsTheTopThreeBits : Obligations.StatusOfIsTheTopThreeBits :=
  fun raw => ⟨rfl, statusOf_eq_extractLsb' raw⟩

end Sys2Proof.Certificates
end
section
/-! PROOFS, family 42_control: what BIND, GETSTATUS and SETRES do, each as the state they complete or fault in. -/

namespace Sys2Proof.Machine

open Sys2Proof.Certificates

/-! ### BIND (42_control.md R140) -/

theorem execBind_valid {a : Half} (ha : bindable a = true) (s : State) :
    execBind a s = .next (completedOn (s.latchAddress a) [.init] 0 (.bool true) false) := by
  rw [execBind, if_pos ha, busInit_eq_afterBus, complete_afterBus]

theorem execBind_invalid {a : Half} (ha : ¬ bindable a = true) (s : State) :
    execBind a s = .next (completedOn s [] 0 (.bool false) false) := by
  rw [execBind, if_neg ha, complete_eq_completedOn_nil]

/-- The latch as the statements write it. -/
theorem State.latchAddress_eq_low (s : State) (a : Half) :
    s.latchAddress a = { s with devAddr := low a, bound := true } := by
  rw [State.latchAddress, lowByte_eq_low]

/-! ### GETSTATUS (42_control.md R142) -/

section Getstatus

variable {s : State}

theorem execGetstatus_captured (hv : s.statusValid = true) :
    execGetstatus s = .next (completedOn s [] 0 (.u8 (statusByte s.status)) false) := by
  rw [execGetstatus, if_pos hv, complete_eq_completedOn_nil]

theorem execGetstatus_zero (hv : s.statusValid = false) (hp : s.params.statusBeforeRead = .zero) :
    execGetstatus s = .next (completedOn s [] 0 (.u8 0) false) := by
  rw [execGetstatus, if_neg (ne_true_of_eq_false hv), hp]
  exact complete_eq_completedOn_nil s _ _

theorem execGetstatus_fault (hv : s.statusValid = false) (hp : s.params.statusBeforeRead = .fault) :
    execGetstatus s = raiseFault .statusUnset s := by
  rw [execGetstatus, if_neg (ne_true_of_eq_false hv), hp]

end Getstatus

/-! ### SETRES (42_control.md R143, R144) -/

theorem execSetres_rejected {v : Byte} (hv : 4 ≤ v.toNat) (s : State) :
    execSetres v s = .next (completedOn s [] 0 .none true) := by
  rw [execSetres_eq, guard_rejected ((resGuarded_iff v).2 hv)]

/-- An accepted value is sent as WR8 sends it to the resolution register. -/
theorem execSetres_eq_execWr8 {v : Byte} (hv : v.toNat < 4) (s : State) :
    execSetres v s = execWr8 Config.regResolution v s := by
  rw [execSetres, execWr8, if_neg (mt (resGuarded_iff v).1 hv.not_ge), if_neg (not_guarded (by decide))]

end Sys2Proof.Machine

namespace Sys2Proof.Certificates

open Sys2Proof.Machine

/-- Settles O22: the BIND range is 24 to 31 (`bindable_iff`); on either side of it BIND completes at once. -/
theorem bindLatchesExactlyTheValidAddresses : Obligations.BindLatchesExactlyTheValidAddresses := by
  intro a s
  rw [← bindable_iff, ← State.latchAddress_eq_low]
  exact ⟨fun ha => execBind_valid ha s, fun ha => execBind_invalid ha s⟩

/-- Settles O32: the three ends of GETSTATUS; `statusByte` is zext_8, and 5 is the code of StatusUnset. -/
theorem getstatusReturnsTheCapturedBits : Obligations.GetstatusReturnsTheCapturedBits :=
  fun _ => ⟨execGetstatus_captured, execGetstatus_zero, execGetstatus_fault⟩

/-- Settles O33: a rejected value ends at the guard; an accepted one is written by WR8 0x08, v (`execSetres_eq_execWr8`),
which sends the sequence of `execWr8_answered`. -/
theorem setresWritesOnlyValidResolutions : Obligations.SetresWritesOnlyValidResolutions := by
  refine fun v s => ⟨fun hv => execSetres_rejected hv s, fun hv st hb h0 => ?_⟩
  exact (execSetres_eq_execWr8 hv s).trans (execWr8_answered (by decide) hb v h0)

end Sys2Proof.Certificates
end
section
/-! PROOFS, family 60_exceptions: the ways a command can end, with the cause of each fault; two runs of one command
side by side; and what a move of the platform is. -/

namespace Sys2Proof.Machine

open Sys2Proof.Certificates

/-! ### EncodeRange (60_exceptions.md R201, 41_temperature_codec.md R125) -/

/-- The cause of EncodeRange: the operand is finite, and Round4 times 4 exceeds 0xFFFF or Round4 overflows. -/
def EncodeOverflows (p : EncRounding) (c : Word) : Prop :=
  ∃ v, f32Value c = some v ∧ ∀ q, round4 p v.natAbs = some q → 0xFFFF < q * 4

section Encode

variable {p : EncRounding} {c : Word}

theorem tempEncode_of_overflows (h : EncodeOverflows p c) : tempEncode p c = .error .encodeRange := by
  obtain ⟨v, hv, hover⟩ := h
  rcases tempEncode_of_finite p hv with ⟨-, he⟩ | ⟨-, q, hq, hle, -⟩
  · exact he
  · exact absurd (hover q hq) (by omega)

theorem encodeOverflows_of_ge {v : Int} (hv : f32Value c = some v) (hl : encodeLimit ≤ v.natAbs) :
    EncodeOverflows p c := by
  refine ⟨v, hv, fun q hq => ?_⟩
  have hge := round4_of_ge p hl hq
  omega

theorem not_encodeOverflows_of_encodable (h : encodable c) : ¬ EncodeOverflows p c := by
  obtain ⟨v, hv, hl⟩ := h
  intro hover
  obtain ⟨q, -, -, he⟩ := tempEncode_of_lt p hv hl
  cases he.symm.trans (tempEncode_of_overflows hover)

/-- The two faults of TempEncode, each with its cause. -/
theorem tempEncode_error_cases {e : FaultCode} (h : tempEncode p c = .error e) :
    (e = .encodeNonFinite ∧ f32Value c = none) ∨ (e = .encodeRange ∧ EncodeOverflows p c) := by
  cases hv : f32Value c with
  | none =>
    cases h.symm.trans (tempEncode_of_nonfinite p hv)
    exact .inl ⟨rfl, rfl⟩
  | some v =>
    rcases tempEncode_of_finite p hv with ⟨hl, he⟩ | ⟨-, q, -, -, he⟩
    · cases h.symm.trans he
      exact .inr ⟨rfl, encodeOverflows_of_ge hv hl⟩
    · cases h.symm.trans he

end Encode

/-! ### The causes of the faults (60_exceptions.md R201) -/

/-- What makes the command `i` raise a fault in `s`, code by code. -/
def Cause (i : Instr) (s : State) : FaultCode → Prop
  | .illegalCommand  => wellFormed i = false
  | .notBound        => s.bound = false ∧ usesBus i ∧ ¬ guardRejects i
  | .encodeNonFinite => ∃ c, floatOperand i = some c ∧ f32Value c = none
  | .encodeRange     => ∃ c, floatOperand i = some c ∧ EncodeOverflows s.params.encRounding c
  | .statusUnset     => i = .getstatus ∧ s.statusValid = false ∧ s.params.statusBeforeRead = .fault

/-- A command that passes every check has no cause to fault. -/
theorem not_cause {i : Instr} {s : State} (hwf : wellFormed i = true) (hbus : usesBus i → s.bound = true)
    (henc : ∀ c, floatOperand i = some c → encodable c)
    (hget : i = .getstatus → s.statusValid = true ∨ s.params.statusBeforeRead = .zero) (c : FaultCode) :
    ¬ Cause i s c := by
  cases c with
  | illegalCommand => exact ne_false_of_eq_true hwf
  | notBound =>
    rintro ⟨hb, hu, -⟩
    exact ne_false_of_eq_true (hbus hu) hb
  | encodeNonFinite =>
    rintro ⟨c, hc, hv⟩
    obtain ⟨v, hv', -⟩ := henc c hc
    cases hv.symm.trans hv'
  | encodeRange =>
    rintro ⟨c, hc, hover⟩
    exact not_encodeOverflows_of_encodable (henc c hc) hover
  | statusUnset =>
    rintro ⟨hi, hv, hp⟩
    rcases hget hi with hv' | hp'
    · cases hv.symm.trans hv'
    · cases hp.symm.trans hp'

/-! ### The ways a command can end -/

/-- `x` is an end of the command `i` in `s`: a fault that has its cause, a completion that leaves FAULT, or the wait
for an answer that never comes. -/
def Ends (i : Instr) (s : State) (x : Out) : Prop :=
  (∃ c, Cause i s c ∧ x = .next (faultedWith s c.code)) ∨
  (∃ t o, x = .next t ∧ t.port = some o ∧ t.fault = s.fault) ∨
  (x = .fault .busNeverAnswers ∧ ∃ k < answersUsed i, s.answer k = none)

section Ends

variable {i : Instr} {s : State}

theorem ends_raiseFault {c : FaultCode} (hc : Cause i s c) : Ends i s (raiseFault c s) := .inl ⟨c, hc, rfl⟩

theorem ends_complete {u : State} {r : Result} {g : Bool} (hu : u.fault = s.fault) : Ends i s (complete r g u) :=
  .inr (.inl ⟨_, ⟨r, g⟩, rfl, rfl, hu⟩)

theorem ends_decodeTemp {u : State} {reg : Byte} {raw : Half} (hu : u.fault = s.fault) :
    Ends i s (decodeTemp reg raw u) := by
  rw [decodeTemp]
  split
  · exact ends_complete hu
  · exact ends_complete hu

theorem ends_whenBound {k : Out} (hu : usesBus i) (hg : ¬ guardRejects i) (hk : Ends i s k) :
    Ends i s (whenBound s k) := by
  cases hb : s.bound
  · rw [whenBound_unbound hb]
    exact ends_raiseFault ⟨hb, hu, hg⟩
  · rwa [whenBound_bound hb]

theorem ends_guard {g : Bool} {r : Result} {k : Out} (hg : g = true ↔ guardRejects i) (hu : usesBus i)
    (hk : Ends i s k) : Ends i s (if g then complete r true s else whenBound s k) := by
  split
  case isTrue => exact ends_complete rfl
  case isFalse h => exact ends_whenBound hu (mt hg.2 h) hk

theorem ends_whenRegIn {regs : List Byte} {reg : Byte} {k : Out} (hwf : wellFormed i = regs.contains reg)
    (hk : Ends i s k) : Ends i s (whenRegIn regs reg s k) := by
  rw [whenRegIn]
  split
  case isTrue => exact hk
  case isFalse h => exact ends_raiseFault (hwf.trans (Bool.eq_false_iff.2 h))

theorem ends_encodeTemp {c : Word} {k : Half → Out} (hc : floatOperand i = some c) (hk : ∀ raw, Ends i s (k raw)) :
    Ends i s (encodeTemp c s k) := by
  cases he : tempEncode s.params.encRounding c with
  | ok raw =>
    rw [encodeTemp_ok he]
    exact hk raw
  | error e =>
    rw [encodeTemp_error he]
    rcases tempEncode_error_cases he with ⟨rfl, hv⟩ | ⟨rfl, hover⟩
    · exact ends_raiseFault ⟨c, hc, hv⟩
    · exact ends_raiseFault ⟨c, hc, hover⟩

theorem ends_whenAnswered {n : Nat} {k : Byte → Out} (hn : n < answersUsed i) (hk : ∀ b, Ends i s (k b)) :
    Ends i s (whenAnswered (s.answer n) k) := by
  cases ha : s.answer n with
  | none => exact .inr (.inr ⟨rfl, n, hn, ha⟩)
  | some b => exact hk b

/-- The wait of a command that takes one answer. -/
theorem ends_oneAnswer {k : Byte → Out} (hn : answersUsed i = 1) (hk : ∀ st, Ends i s (k st)) :
    Ends i s (whenAnswered (s.answer 0) k) :=
  ends_whenAnswered (by omega) hk

/-- The waits of a read of two bytes: an end status and the bytes. -/
theorem ends_threeAnswers {k : Byte → Byte → Byte → Out} (hn : answersUsed i = 3)
    (hk : ∀ st b0 b1, Ends i s (k st b0 b1)) :
    Ends i s (whenAnswered (s.answer 0) fun st => whenAnswered (s.answer 1) fun b0 =>
      whenAnswered (s.answer 2) fun b1 => k st b0 b1) :=
  ends_whenAnswered (by omega) fun st => ends_whenAnswered (by omega) fun b0 => ends_whenAnswered (by omega) (hk st b0)

end Ends

/-- How any command ends. -/
theorem exec_ends (i : Instr) (s : State) : Ends i s (exec i s) := by
  cases i with
  | bind a =>
    rw [exec, execBind]
    split
    · exact ends_complete rfl
    · exact ends_complete rfl
  | probe =>
    rw [exec, execProbe_eq]
    exact ends_whenBound trivial id <| ends_oneAnswer rfl fun _ => ends_complete rfl
  | rd8 reg =>
    rw [exec, execRd8_eq]
    exact ends_guard (guarded_iff reg) trivial <| ends_whenAnswered Nat.two_pos fun _ =>
      ends_whenAnswered Nat.one_lt_two fun _ => ends_complete rfl
  | rd16 reg =>
    rw [exec, execRd16_eq]
    exact ends_guard (guarded_iff reg) trivial <| ends_threeAnswers rfl fun _ _ _ => ends_complete rfl
  | wr8 reg v =>
    rw [exec, execWr8_eq]
    exact ends_guard (guarded_iff reg) trivial <| ends_oneAnswer rfl fun _ => ends_complete rfl
  | wr16 reg v =>
    rw [exec, execWr16_eq]
    exact ends_guard (guarded_iff reg) trivial <| ends_oneAnswer rfl fun _ => ends_complete rfl
  | decode reg raw =>
    rw [exec, execDecode]
    exact ends_whenRegIn rfl (ends_decodeTemp rfl)
  | encode c =>
    rw [exec, execEncode]
    exact ends_encodeTemp rfl fun _ => ends_complete rfl
  | rdtemp reg =>
    rw [exec, execRdtemp_eq]
    exact ends_whenRegIn rfl <| ends_whenBound trivial id <| ends_threeAnswers rfl fun _ _ _ => ends_decodeTemp rfl
  | wrtemp reg c =>
    rw [exec, execWrtemp_eq]
    exact ends_whenRegIn rfl <| ends_whenBound trivial id <| ends_encodeTemp rfl fun _ =>
      ends_oneAnswer rfl fun _ => ends_complete rfl
  | getstatus =>
    rw [exec]
    cases hv : s.statusValid with
    | true =>
      rw [execGetstatus_captured hv, ← complete_eq_completedOn_nil]
      exact ends_complete rfl
    | false =>
      cases hp : s.params.statusBeforeRead with
      | fault =>
        rw [execGetstatus_fault hv hp]
        exact ends_raiseFault ⟨rfl, hv, hp⟩
      | zero =>
        rw [execGetstatus_zero hv hp, ← complete_eq_completedOn_nil]
        exact ends_complete rfl
  | setres v =>
    rw [exec, execSetres_eq]
    exact ends_guard (resGuarded_iff v) trivial <| ends_oneAnswer rfl fun _ => ends_complete rfl

/-- A next state of a command is that of a fault which has its cause, or has an output and the FAULT of before. -/
theorem exec_next_cases {i : Instr} {s t : State} (h : exec i s = .next t) :
    (∃ c, Cause i s c ∧ t = faultedWith s c.code) ∨ (t.port ≠ none ∧ t.fault = s.fault) := by
  rcases exec_ends i s with ⟨c, hc, hx⟩ | ⟨t', o, hx, hp, hf⟩ | ⟨hx, -⟩
  · cases h.symm.trans hx
    exact .inl ⟨c, hc, rfl⟩
  · cases h.symm.trans hx
    exact .inr ⟨hp ▸ Option.some_ne_none o, hf⟩
  · cases h.symm.trans hx

/-! ### Each check stops a command that the checks before it let through (60_exceptions.md R204) -/

section Checks

variable {i : Instr} {s : State}

/-- A rejecting guard completes the command at once, bound or not. -/
theorem exec_rejected (hg : guardRejects i) (s : State) : ∃ r, exec i s = .next (completedOn s [] 0 r true) := by
  cases i with
  | rd8 reg => exact ⟨_, (execRd8_eq reg s).trans (guard_rejected ((guarded_iff reg).2 hg) s _ _)⟩
  | rd16 reg => exact ⟨_, (execRd16_eq reg s).trans (guard_rejected ((guarded_iff reg).2 hg) s _ _)⟩
  | wr8 reg v => exact ⟨_, (execWr8_eq reg v s).trans (guard_rejected ((guarded_iff reg).2 hg) s _ _)⟩
  | wr16 reg v => exact ⟨_, (execWr16_eq reg v s).trans (guard_rejected ((guarded_iff reg).2 hg) s _ _)⟩
  | setres v => exact ⟨_, execSetres_rejected hg s⟩
  | _ => exact hg.elim

theorem guard_passed_unbound {g : Bool} {r : Result} {k : Out} (hg : ¬ g = true) (hb : s.bound = false) :
    (if g then complete r true s else whenBound s k) = raiseFault .notBound s := by
  rw [if_neg hg, whenBound_unbound hb]

/-- An unbound block faults a command that would use the bus. -/
theorem exec_unbound (hwf : wellFormed i = true) (hg : ¬ guardRejects i) (hu : usesBus i) (hb : s.bound = false) :
    exec i s = raiseFault .notBound s := by
  cases i with
  | probe => exact whenBound_unbound hb _
  | rd8 reg => exact guard_passed_unbound (mt (guarded_iff reg).1 hg) hb
  | rd16 reg => exact guard_passed_unbound (mt (guarded_iff reg).1 hg) hb
  | wr8 reg v => exact guard_passed_unbound (mt (guarded_iff reg).1 hg) hb
  | wr16 reg v => exact guard_passed_unbound (mt (guarded_iff reg).1 hg) hb
  | rdtemp reg => exact (whenRegIn_mem (List.contains_iff_mem.1 hwf) s _).trans (whenBound_unbound hb _)
  | wrtemp reg c => exact (whenRegIn_mem (List.contains_iff_mem.1 hwf) s _).trans (whenBound_unbound hb _)
  | setres v => exact guard_passed_unbound (mt (resGuarded_iff v).1 hg) hb
  | _ => exact hu.elim

/-- Past the checks before it, a command with a float operand starts with TempEncode of it. -/
theorem exec_eq_encodeTemp {c : Word} (hwf : wellFormed i = true) (hc : floatOperand i = some c)
    (hb : usesBus i → s.bound = true) : ∃ k, exec i s = encodeTemp c s k := by
  cases i with
  | encode c' =>
    cases hc
    exact ⟨_, rfl⟩
  | wrtemp reg c' =>
    cases hc
    exact ⟨_, (whenRegIn_mem (List.contains_iff_mem.1 hwf) s _).trans (whenBound_bound (hb trivial) _)⟩
  | _ => cases hc

/-- A fault of TempEncode is the command's. -/
theorem exec_of_tempEncode_error {c : Word} {e : FaultCode} (hwf : wellFormed i = true) (hc : floatOperand i = some c)
    (hb : usesBus i → s.bound = true) (he : tempEncode s.params.encRounding c = .error e) :
    exec i s = raiseFault e s := by
  obtain ⟨k, hk⟩ := exec_eq_encodeTemp hwf hc hb
  rw [hk, encodeTemp_error he]

end Checks

/-! ### What the decoder has checked -/

theorem wellFormed_of_decode_ok {w : Command} {i : Instr} (h : decode w = .ok i) : wellFormed i = true := by
  obtain ⟨o, -, -, hadmits, rfl⟩ := (decode_ok_iff w i).1 h
  rw [wellFormed_assembleOperands, hadmits]

theorem not_legal_of_decode_error {w : Command} {e : DecodeError} (h : decode w = .error e) : ¬ legal w.cmd := by
  rw [← exists_decode_ok_iff_legal]
  rintro ⟨i, hi⟩
  cases h.symm.trans hi

/-! ### Two runs of one command, side by side -/

/-- `R` relates states that a command treats alike, `P` the answers to a BusEnd in the two runs, and `Q` the outcomes:
the registers a command writes keep `R`, and `Q` holds of the ends a command can come to from states that `R` relates. -/
structure SideBySide (R : State → State → Prop) (P : Byte → Byte → Prop) (Q : Out → Out → Prop) : Prop where
  params {u u' : State} : R u u' → u.params = u'.params
  bound {u u' : State} : R u u' → u.bound = u'.bound
  busAddr {u u' : State} : R u u' → u.busAddr = u'.busAddr
  laterAnswer {u u' : State} : R u u' → ∀ n, u.answer (n + 1) = u'.answer (n + 1)
  latchAddress {u u' : State} (a : Half) : R u u' → R (u.latchAddress a) (u'.latchAddress a)
  captureStatus {u u' : State} (st : BitVec 3) : R u u' → R (u.captureStatus st) (u'.captureStatus st)
  raised {u u' : State} (c : FaultCode) : R u u' → Q (raiseFault c u) (raiseFault c u')
  silent : Q (.fault .busNeverAnswers) (.fault .busNeverAnswers)
  endStatus {u u' : State} {k k' : Byte → Out} : R u u' → (∀ st st', P st st' → Q (k st) (k' st')) →
    Q (whenAnswered (u.answer 0) k) (whenAnswered (u'.answer 0) k')
  /-- A completion that drew no answer. -/
  quiet {u u' : State} (ev : List BusEvent) (r : Result) (g : Bool) : R u u' →
    Q (.next (completedOn u ev 0 r g)) (.next (completedOn u' ev 0 r g))
  /-- A completion after a transaction that one BusEnd is part of. -/
  ended {u u' : State} {st st' : Byte} (before after : List BusEvent) (n : Nat) (r : Result) (g : Bool) : R u u' →
    P st st' → Q (.next (completedOn u (before ++ [.ended st] ++ after) (n + 1) r g))
      (.next (completedOn u' (before ++ [.ended st'] ++ after) (n + 1) r g))

section SideBySide

variable {R : State → State → Prop} {P : Byte → Byte → Prop} {Q : Out → Out → Prop} (hQ : SideBySide R P Q)
  {s s' : State} (hR : R s s')
include hQ hR

theorem SideBySide.complete_rel (r : Result) (g : Bool) : Q (complete r g s) (complete r g s') := by
  rw [complete_eq_completedOn_nil, complete_eq_completedOn_nil]
  exact hQ.quiet [] r g hR

theorem SideBySide.whenBound_rel {k k' : Out} (hk : Q k k') : Q (whenBound s k) (whenBound s' k') := by
  cases hb : s.bound
  · rw [whenBound_unbound hb, whenBound_unbound ((hQ.bound hR).symm.trans hb)]
    exact hQ.raised _ hR
  · rwa [whenBound_bound hb, whenBound_bound ((hQ.bound hR).symm.trans hb)]

/-- A guarded access: the guard, then the bound check. -/
theorem SideBySide.guard_rel (g : Bool) (r : Result) {k k' : Out} (hk : Q k k') :
    Q (if g then complete r true s else whenBound s k)
      (if g then complete r true s' else whenBound s' k') := by
  cases g
  · exact hQ.whenBound_rel hR hk
  · exact hQ.complete_rel hR r true

theorem SideBySide.whenRegIn_rel (regs : List Byte) (reg : Byte) {k k' : Out} (hk : Q k k') :
    Q (whenRegIn regs reg s k) (whenRegIn regs reg s' k') := by
  by_cases hr : reg ∈ regs
  · rwa [whenRegIn_mem hr, whenRegIn_mem hr]
  · rw [whenRegIn_not_mem hr, whenRegIn_not_mem hr]
    exact hQ.raised _ hR

theorem SideBySide.encodeTemp_rel (c : Word) {k k' : Half → Out} (hk : ∀ raw, Q (k raw) (k' raw)) :
    Q (encodeTemp c s k) (encodeTemp c s' k') := by
  have hp : s.params.encRounding = s'.params.encRounding := congrArg _ (hQ.params hR)
  cases he : tempEncode s.params.encRounding c with
  | ok raw =>
    rw [encodeTemp_ok he, encodeTemp_ok (hp ▸ he)]
    exact hk raw
  | error e =>
    rw [encodeTemp_error he, encodeTemp_error (hp ▸ he)]
    exact hQ.raised e hR

theorem SideBySide.laterAnswer_rel (n : Nat) {k k' : Byte → Out} (hk : ∀ b, Q (k b) (k' b)) :
    Q (whenAnswered (s.answer (n + 1)) k) (whenAnswered (s'.answer (n + 1)) k') := by
  rw [hQ.laterAnswer hR]
  cases s'.answer (n + 1) with
  | none => exact hQ.silent
  | some b => exact hk b

theorem SideBySide.afterDecode_rel (reg : Byte) (raw : Half) : R (afterDecode s reg raw) (afterDecode s' reg raw) := by
  rw [← captureStatus_ambient, ← captureStatus_ambient]
  split
  · exact hQ.captureStatus _ hR
  · exact hR

/-- Two runs of one command from related states come to related outcomes, unless it is PROBE and the two end statuses
differ, or GETSTATUS and what it shows differs. -/
theorem SideBySide.exec_rel (i : Instr) (hprobe : i = .probe → ∀ st st', P st st' → st = st')
    (hget : i = .getstatus → s.statusValid = s'.statusValid ∧ s.status = s'.status) :
    Q (exec i s) (exec i s') := by
  cases i with
  | bind a =>
    by_cases ha : bindable a = true
    · simp only [exec, execBind_valid ha]
      exact hQ.quiet _ _ _ (hQ.latchAddress a hR)
    · simp only [exec, execBind_invalid ha]
      exact hQ.quiet _ _ _ hR
  | probe =>
    simp only [exec, execProbe_eq]
    refine hQ.whenBound_rel hR <| hQ.endStatus hR fun st st' hP => ?_
    obtain rfl := hprobe rfl st st' hP
    rw [hQ.busAddr hR]
    exact hQ.ended [.beginAt _] [] 0 _ _ hR hP
  | rd8 reg =>
    simp only [exec, execRd8_eq]
    refine hQ.guard_rel hR _ _ <| hQ.endStatus hR fun st st' hP => hQ.laterAnswer_rel hR 0 fun b0 => ?_
    rw [hQ.busAddr hR]
    exact hQ.ended [.beginAt _, .write reg] _ 1 _ _ hR hP
  | rd16 reg =>
    simp only [exec, execRd16_eq]
    refine hQ.guard_rel hR _ _ <| hQ.endStatus hR fun st st' hP => hQ.laterAnswer_rel hR 0 fun b0 =>
      hQ.laterAnswer_rel hR 1 fun b1 => ?_
    rw [hQ.busAddr hR]
    exact hQ.ended [.beginAt _, .write reg] _ 2 _ _ hR hP
  | wr8 reg v =>
    simp only [exec, execWr8_eq]
    refine hQ.guard_rel hR _ _ <| hQ.endStatus hR fun st st' hP => ?_
    rw [hQ.busAddr hR]
    exact hQ.ended [.beginAt _, .write reg, .write v] [] 0 _ _ hR hP
  | wr16 reg v =>
    simp only [exec, execWr16_eq]
    refine hQ.guard_rel hR _ _ <| hQ.endStatus hR fun st st' hP => ?_
    rw [hQ.busAddr hR]
    exact hQ.ended [.beginAt _, .write reg, .write _, .write _] [] 0 _ _ hR hP
  | decode reg raw =>
    simp only [exec, execDecode, decodeTemp_eq]
    exact hQ.whenRegIn_rel hR _ _ <| hQ.quiet _ _ _ (hQ.afterDecode_rel hR reg raw)
  | encode c => exact hQ.encodeTemp_rel hR c fun _ => hQ.complete_rel hR _ _
  | rdtemp reg =>
    simp only [exec, execRdtemp_eq, decodeTemp_afterBus]
    refine hQ.whenRegIn_rel hR _ _ <| hQ.whenBound_rel hR <| hQ.endStatus hR fun st st' hP =>
      hQ.laterAnswer_rel hR 0 fun b0 => hQ.laterAnswer_rel hR 1 fun b1 => ?_
    rw [hQ.busAddr hR]
    exact hQ.ended [.beginAt _, .write reg] _ 2 _ _ (hQ.afterDecode_rel hR reg _) hP
  | wrtemp reg c =>
    simp only [exec, execWrtemp_eq]
    refine hQ.whenRegIn_rel hR _ _ <| hQ.whenBound_rel hR <| hQ.encodeTemp_rel hR c fun raw =>
      hQ.endStatus hR fun st st' hP => ?_
    rw [hQ.busAddr hR]
    exact hQ.ended [.beginAt _, .write reg, .write _, .write _] [] 0 _ _ hR hP
  | getstatus =>
    obtain ⟨hvalid, hstatus⟩ := hget rfl
    simp only [exec, execGetstatus, hvalid, hstatus, hQ.params hR]
    split
    · exact hQ.complete_rel hR _ _
    · split
      · exact hQ.raised _ hR
      · exact hQ.complete_rel hR _ _
  | setres v =>
    simp only [exec, execSetres_eq]
    refine hQ.guard_rel hR _ _ <| hQ.endStatus hR fun st st' hP => ?_
    rw [hQ.busAddr hR]
    exact hQ.ended [.beginAt _, .write _, .write v] [] 0 _ _ hR hP

end SideBySide

/-! ### Another STATUS (60_exceptions.md R211) -/

/-- `s` with other values of STATUS and STATUS_VALID. -/
def State.withStatus (s : State) (st : BitVec 3) (valid : Bool) : State :=
  { s with status := st, statusValid := valid }

/-- States that differ in STATUS and STATUS_VALID alone are treated alike, but for those two registers: each outcome is
the same once both are 0. -/
theorem sideBySide_withStatus :
    SideBySide (fun u u' => ∃ st valid, u = u'.withStatus st valid) Eq
      (fun x x' => mapNext (·.withStatus 0 false) x = mapNext (·.withStatus 0 false) x') where
  params := by rintro _ u ⟨st, valid, rfl⟩; rfl
  bound := by rintro _ u ⟨st, valid, rfl⟩; rfl
  busAddr := by rintro _ u ⟨st, valid, rfl⟩; rfl
  laterAnswer := by rintro _ u ⟨st, valid, rfl⟩ n; rfl
  latchAddress := by rintro _ u a ⟨st, valid, rfl⟩; exact ⟨st, valid, rfl⟩
  captureStatus := by rintro _ u captured ⟨st, valid, rfl⟩; exact ⟨captured, true, rfl⟩
  raised := by rintro _ u c ⟨st, valid, rfl⟩; rfl
  silent := rfl
  endStatus := by
    rintro _ u k k' ⟨st, valid, rfl⟩ hk
    change mapNext _ (whenAnswered (u.answer 0) k) = _
    cases u.answer 0 with
    | none => rfl
    | some b => exact hk b b rfl
  quiet := by rintro _ u ev r g ⟨st, valid, rfl⟩; rfl
  ended := by rintro _ u b _ before after n r g ⟨st, valid, rfl⟩ rfl; rfl

/-! ### Another end status (60_exceptions.md R212) -/

/-- `s` where the bus agent's next answer is `st`, and `later` are those after it. -/
def State.answering (s : State) (later : List (Option Byte)) (st : Byte) : State :=
  { s with busScript := some st :: later }

/-- The outcome `x`, of a run from `s` whose first answer is `st`, and the outcome `x'` with the first answer `st'`: if
`x` is a next state, `x'` differs from it only in that the answer still stands, or in the event that records it. -/
def DifferInEndStatus (s : State) (later : List (Option Byte)) (st st' : Byte) (x x' : Out) : Prop :=
  ∀ t, x = .next t → ∃ t', x' = .next t' ∧
    ((t.busScript = some st :: later ∧ t' = t.answering later st') ∨
      ∃ before after, t.busHistory = s.busHistory ++ before ++ [.ended st] ++ after ∧
        t' = { t with busHistory := s.busHistory ++ before ++ [.ended st'] ++ after })

/-- States that differ in the next answer alone are treated alike, but for what becomes of that answer. -/
theorem sideBySide_answering (s : State) (later : List (Option Byte)) (st st' : Byte) :
    SideBySide
      (fun u u' => ∃ v : State, v.busHistory = s.busHistory ∧ u = v.answering later st ∧ u' = v.answering later st')
      (fun a a' => a = st ∧ a' = st') (DifferInEndStatus s later st st') where
  params := by rintro _ _ ⟨v, -, rfl, rfl⟩; rfl
  bound := by rintro _ _ ⟨v, -, rfl, rfl⟩; rfl
  busAddr := by rintro _ _ ⟨v, -, rfl, rfl⟩; rfl
  laterAnswer := by rintro _ _ ⟨v, -, rfl, rfl⟩ n; rfl
  latchAddress := by rintro _ _ a ⟨v, hv, rfl, rfl⟩; exact ⟨v.latchAddress a, hv, rfl, rfl⟩
  captureStatus := by rintro _ _ b ⟨v, hv, rfl, rfl⟩; exact ⟨v.captureStatus b, hv, rfl, rfl⟩
  raised := by
    rintro _ _ c ⟨v, -, rfl, rfl⟩ t ⟨⟩
    exact ⟨_, rfl, .inl ⟨rfl, rfl⟩⟩
  silent := nofun
  endStatus := by
    rintro _ _ k k' ⟨v, -, rfl, rfl⟩ hk
    exact hk st st' ⟨rfl, rfl⟩
  quiet := by
    rintro _ _ ev r g ⟨v, -, rfl, rfl⟩ t ⟨⟩
    exact ⟨_, rfl, .inl ⟨rfl, rfl⟩⟩
  ended := by
    rintro _ _ _ _ before after n r g ⟨v, hv, rfl, rfl⟩ ⟨rfl, rfl⟩ t ⟨⟩
    refine ⟨_, rfl, .inr ⟨before, after, ?_, ?_⟩⟩
    · simp [completedOn, State.answering, hv]
    · simp [completedOn, State.answering, hv]

/-! ### The bus history of one block, and its move on a shared bus (60_exceptions.md R209) -/

/-- A step appends to the bus history, or is a reset, which empties it. -/
theorem step_busHistory {s t : State} (h : step s = .next t) :
    (∃ ev, t.busHistory = s.busHistory ++ ev) ∨ (s.inputs.head? = some .reset ∧ t.busHistory = []) := by
  rcases step_next_cases h with ⟨-, rfl⟩ | ⟨rest, hi, rfl⟩ | ⟨w, rest, e, -, -, -, rfl⟩ | ⟨w, rest, i, -, -, -, hx⟩
  · exact .inl ⟨[], (List.append_nil _).symm⟩
  · exact .inr ⟨by rw [hi, List.head?_cons], rfl⟩
  · exact .inl ⟨[], (List.append_nil _).symm⟩
  · obtain ⟨-, -, -, hev⟩ := exec_keeps hx
    exact .inl hev

/-- A move of no block changes nothing; a move of a block is one step of it. -/
theorem Platform.move_next_cases {p q : Platform} {k : Nat} (h : p.move k = .next q) :
    (p.blocks[k]? = none ∧ q = p) ∨
    ∃ s t, p.blocks[k]? = some s ∧ step (p.lend s) = .next t ∧ q = p.after k s t := by
  rw [Platform.move] at h
  cases hs : p.blocks[k]? with
  | none =>
    rw [hs] at h
    cases h
    exact .inl ⟨rfl, rfl⟩
  | some s =>
    rw [hs] at h
    cases hstep : step (p.lend s) with
    | next t =>
      simp only [hstep] at h
      cases h
      exact .inr ⟨s, t, rfl, hstep, rfl⟩
    | fault r =>
      simp only [hstep] at h
      cases h
    | refused r =>
      simp only [hstep] at h
      cases h

end Sys2Proof.Machine

namespace Sys2Proof.Certificates

open Sys2Proof.Machine

/-- Settles O10: a command is refused by `step_stuck`, so of the ways a step can go (`step_next_cases`) a halted block
has only the idle one and the reset. -/
theorem haltedBlockExecutesNothing : Obligations.HaltedBlockExecutesNothing := by
  refine ⟨fun s w rest => step_stuck, fun s t hf h => ?_, fun s rest hi => ⟨_, step_reset hi, rfl⟩,
    fun s hf hend => hf hend.2⟩
  rcases step_next_cases h with ⟨-, rfl⟩ | ⟨rest, hi, rfl⟩ | ⟨_, _, _, -, hf₀, -⟩ | ⟨_, _, _, -, hf₀, -⟩
  · exact .inl ⟨rfl, rfl⟩
  · exact .inr ⟨rest, hi, rfl⟩
  · exact absurd hf₀ hf
  · exact absurd hf₀ hf

/-- Settles O14: a next state of a command is one of the two of `exec_next_cases`; an illegal word is `step_illegal`. -/
theorem faultWritesOnlyFault : Obligations.FaultWritesOnlyFault := by
  refine ⟨fun i s t h => ?_, fun s w rest e hf hi hd => step_illegal hf hi hd⟩
  rcases exec_next_cases h with ⟨c, -, rfl⟩ | ⟨hp, hf⟩
  · exact ⟨fun _ => ⟨c.code, by cases c <;> decide, rfl⟩, fun hp => absurd rfl hp⟩
  · exact ⟨fun hp' => absurd hp' hp, fun _ => hf⟩

/-- Settles O15: of the ways a step can go, the idle one and the reset leave FAULT = 0, a word that does not decode is
not legal, and a decoded command raises no fault without its cause (`exec_next_cases`). -/
theorem faultCodesHaveTheirCauses : Obligations.FaultCodesHaveTheirCauses := by
  intro s t hf h ht
  rcases step_next_cases h with ⟨-, rfl⟩ | ⟨rest, -, rfl⟩ | ⟨w, rest, e, hi, -, hd, rfl⟩ | ⟨w, rest, i, hi, -, hd, hx⟩
  · exact absurd hf ht
  · exact absurd rfl ht
  · exact ⟨w, rest, hi, rfl, .inl ⟨rfl, not_legal_of_decode_error hd⟩⟩
  · rcases exec_next_cases hx with ⟨c, hc, rfl⟩ | ⟨-, hf'⟩
    · refine ⟨w, rest, hi, rfl, .inr ⟨i, hd, ?_⟩⟩
      cases c with
      | illegalCommand => exact absurd (wellFormed_of_decode_ok hd) (ne_true_of_eq_false hc)
      | notBound => exact .inl ⟨rfl, hc⟩
      | encodeNonFinite => exact .inr (.inl ⟨rfl, hc⟩)
      | encodeRange =>
        obtain ⟨c, hc, v, hover⟩ := hc
        exact .inr (.inr (.inl ⟨rfl, c, v, hc, hover⟩))
      | statusUnset => exact .inr (.inr (.inr ⟨rfl, hc⟩))
    · exact absurd (hf'.trans hf) ht

/-- Settles O16: each check stops the command as the lemma on it says (`exec_rejected`, `exec_unbound`,
`exec_of_tempEncode_error`, `execGetstatus_fault`), and with no cause left the command has an output. -/
theorem checksComeInTheOrderOfTheSpec : Obligations.ChecksComeInTheOrderOfTheSpec := by
  refine ⟨fun s w rest => step_of_not_legal, fun i s hwf => ⟨fun hg => exec_rejected hg s, exec_unbound hwf,
    fun c hc hb => ⟨fun hv => ?_, fun v hv hover => ?_⟩, ?_, fun hbus henc hget t ht => ?_⟩⟩
  · exact exec_of_tempEncode_error hwf hc hb (tempEncode_of_nonfinite _ hv)
  · exact exec_of_tempEncode_error hwf hc hb (tempEncode_of_overflows ⟨v, hv, hover⟩)
  · rintro rfl hv hp
    exact execGetstatus_fault hv hp
  · rcases exec_next_cases ht with ⟨c, hc, -⟩ | ⟨hp, -⟩
    · have hbound : usesBus i → s.bound = true := fun hu => by
        obtain ⟨-, -, -, hb, -⟩ := hbus hu
        exact hb
      exact absurd hc (not_cause hwf hbound henc hget c)
    · exact hp

/-- Settles O34: a command that reaches its bus sequence has no cause to fault (`not_cause`) and is answered, which
leaves the completion among its ends (`exec_ends`); two runs with different end statuses are `sideBySide_answering`. -/
theorem busFailureIsNeverAFault : Obligations.BusFailureIsNeverAFault := by
  refine ⟨fun i s hr hans => ?_, fun i s t st st' later hi h => ?_⟩
  · obtain ⟨hu, hwf, -, hb, henc⟩ := hr
    rcases exec_ends i s with ⟨c, hc, -⟩ | hdone | ⟨-, k, hk, ha⟩
    · refine absurd hc (not_cause hwf (fun _ => hb) henc ?_ c)
      rintro rfl
      exact hu.elim
    · exact hdone
    · exact absurd ha (hans k hk)
  · exact (sideBySide_answering s later st st').exec_rel ⟨s, rfl, rfl, rfl⟩ i (fun hp => absurd hp hi)
      (fun _ => ⟨rfl, rfl⟩) t h

/-- Settles O38: states that differ in the two registers are treated alike (`sideBySide_withStatus`), unless the command
is GETSTATUS. -/
theorem onlyGetstatusShowsStatus : Obligations.OnlyGetstatusShowsStatus :=
  fun i _ st v hi => sideBySide_withStatus.exec_rel ⟨st, v, rfl⟩ i (fun _ _ _ h => h) (fun hget => absurd hget hi)

/-- Settles O41: the two cases of `Platform.move_next_cases`; the step of the moved block appends to its history or is a
reset (`step_busHistory`). -/
theorem platformMovesOneInstanceAtATime : Obligations.PlatformMovesOneInstanceAtATime := by
  intro p q k h
  rcases Platform.move_next_cases h with ⟨hk, rfl⟩ | ⟨s, t, hk, hstep, rfl⟩
  · refine ⟨rfl, fun _ _ => rfl, fun _ => rfl, fun s hs => ?_⟩
    cases hk.symm.trans hs
  · refine ⟨List.length_set, fun j hj => List.getElem?_set_ne hj.symm, fun hn => ?_, fun s' hs => ?_⟩
    · cases hk.symm.trans hn
    · cases hk.symm.trans hs
      have hlt : k < p.blocks.length := (List.getElem?_eq_some_iff.1 hk).1
      refine ⟨t, hstep, List.getElem?_set_self hlt, rfl, rfl, rfl, (step_busHistory hstep).imp_left ?_⟩
      rintro ⟨ev, hev⟩
      have hev : t.busHistory = s.busHistory ++ ev := hev
      rw [hev, List.drop_left]

end Sys2Proof.Certificates
end
section
/-! PROOFS, family 70_reset_and_hazards: a command stops exactly at its bus sequence, when an answer of it never
comes. -/

namespace Sys2Proof.Machine

open Sys2Proof.Certificates

/-! ### What a stop of a command tells (70_reset_and_hazards.md R247, 60_exceptions.md R204) -/

/-- A fault of the spec is a next state, no stop of the model (60_exceptions.md R202). -/
theorem raiseFault_ne_fault (c : FaultCode) (s : State) (r : Fault) : raiseFault c s ≠ .fault r := nofun

/-- TempEncode lets through exactly the operands below its limit (41_temperature_codec.md R127). -/
theorem encodable_iff_exists_tempEncode_ok (p : EncRounding) {c : Word} :
    encodable c ↔ ∃ raw, tempEncode p c = .ok raw := by
  constructor
  · rintro ⟨v, hv, hl⟩
    obtain ⟨q, -, -, he⟩ := tempEncode_of_lt p hv hl
    exact ⟨_, he⟩
  · rintro ⟨raw, he⟩
    cases hv : f32Value c with
    | none => cases he.symm.trans (tempEncode_of_nonfinite p hv)
    | some v =>
      rcases tempEncode_of_finite p hv with ⟨-, he'⟩ | ⟨hl, -⟩
      · cases he.symm.trans he'
      · exact ⟨v, hv, hl⟩

theorem usesBus_of_lt_answersUsed {i : Instr} {k : Nat} (hk : k < answersUsed i) : usesBus i := by
  cases i with
  | bind | decode | encode | getstatus => exact absurd hk (Nat.not_lt_zero k)
  | _ => trivial

section Stops

variable {i : Instr} {s : State} {r : Fault}

/-- A term no command word encodes is an IllegalCommand (log 11). -/
theorem exec_illFormed (hwf : ¬ wellFormed i = true) : exec i s = raiseFault .illegalCommand s := by
  cases i with
  | decode reg raw => exact whenRegIn_not_mem (mt List.contains_iff_mem.2 hwf) s _
  | rdtemp reg => exact whenRegIn_not_mem (mt List.contains_iff_mem.2 hwf) s _
  | wrtemp reg c => exact whenRegIn_not_mem (mt List.contains_iff_mem.2 hwf) s _
  | _ => exact absurd rfl hwf

/-- The one stop of a command is the wait for an answer that never comes. -/
theorem exec_fault_cases (h : exec i s = .fault r) :
    r = .busNeverAnswers ∧ ∃ k < answersUsed i, s.answer k = none := by
  rcases exec_ends i s with ⟨c, -, hx⟩ | ⟨t, o, hx, -⟩ | ⟨hx, hk⟩
  · cases h.symm.trans hx
  · cases h.symm.trans hx
  · cases h.symm.trans hx
    exact ⟨rfl, hk⟩

theorem exec_ne_refused (i : Instr) (s : State) (r : Refusal) : exec i s ≠ .refused r := by
  intro h
  rcases exec_ends i s with ⟨c, -, hx⟩ | ⟨t, o, hx, -⟩ | ⟨hx, -⟩
  · cases h.symm.trans hx
  · cases h.symm.trans hx
  · cases h.symm.trans hx

/-- A check of R204 that fails ends the command in a next state, so a command that stops has passed each. -/
theorem reachesBus_of_exec_fault (h : exec i s = .fault r) : reachesBus i s := by
  obtain ⟨-, k, hk, -⟩ := exec_fault_cases h
  have hu : usesBus i := usesBus_of_lt_answersUsed hk
  have hwf : wellFormed i = true := by
    by_contra hwf
    exact raiseFault_ne_fault _ s r ((exec_illFormed hwf).symm.trans h)
  have hg : ¬ guardRejects i := by
    intro hg
    obtain ⟨res, hx⟩ := exec_rejected hg s
    cases h.symm.trans hx
  have hb : s.bound = true := by
    by_contra hb
    exact raiseFault_ne_fault _ s r ((exec_unbound hwf hg hu (Bool.eq_false_iff.2 hb)).symm.trans h)
  refine ⟨hu, hwf, hg, hb, fun c hc => ?_⟩
  rw [encodable_iff_exists_tempEncode_ok s.params.encRounding]
  cases he : tempEncode s.params.encRounding c with
  | ok raw => exact ⟨raw, rfl⟩
  | error e =>
    exact absurd ((exec_of_tempEncode_error hwf hc (fun _ => hb) he).symm.trans h) (raiseFault_ne_fault e s r)

end Stops

/-! ### A bus sequence whose agent falls silent (20_memory.md R47 to R49) -/

/-- `x` stops if one of the bus agent's answers `n` to `m - 1` never comes. -/
def StopsWithout (s : State) (n m : Nat) (x : Out) : Prop :=
  ∀ k, n ≤ k → k < m → s.answer k = none → x = .fault .busNeverAnswers

section Silent

variable {s : State} {n : Nat} {k : Byte → Out}

theorem stopsWithout_whenAnswered {m : Nat} (hk : ∀ b, StopsWithout s (n + 1) m (k b)) :
    StopsWithout s n m (whenAnswered (s.answer n) k) := by
  intro j hn hm hj
  cases ha : s.answer n with
  | none => rfl
  | some b =>
    have hne : n ≠ j := by
      rintro rfl
      cases ha.symm.trans hj
    exact hk b j (lt_of_le_of_ne hn hne) hm hj

theorem stopsWithout_lastAnswer : StopsWithout s n (n + 1) (whenAnswered (s.answer n) k) :=
  stopsWithout_whenAnswered fun _ _ hn hm => absurd hm hn.not_gt

end Silent

/-- Past the checks of R204 a command waits for each of its answers in turn. -/
theorem exec_stopsWithout {i : Instr} {s : State} (h : reachesBus i s) :
    StopsWithout s 0 (answersUsed i) (exec i s) := by
  obtain ⟨hu, hwf, hg, hb, henc⟩ := h
  cases i with
  | probe =>
    rw [exec, execProbe_eq, whenBound_bound hb]
    exact stopsWithout_lastAnswer
  | rd8 reg =>
    rw [exec, execRd8_eq, guard_passed_bound (mt (guarded_iff reg).1 hg) hb]
    exact stopsWithout_whenAnswered fun _ => stopsWithout_lastAnswer
  | rd16 reg =>
    rw [exec, execRd16_eq, guard_passed_bound (mt (guarded_iff reg).1 hg) hb]
    exact stopsWithout_whenAnswered fun _ => stopsWithout_whenAnswered fun _ => stopsWithout_lastAnswer
  | wr8 reg v =>
    rw [exec, execWr8_eq, guard_passed_bound (mt (guarded_iff reg).1 hg) hb]
    exact stopsWithout_lastAnswer
  | wr16 reg v =>
    rw [exec, execWr16_eq, guard_passed_bound (mt (guarded_iff reg).1 hg) hb]
    exact stopsWithout_lastAnswer
  | rdtemp reg =>
    rw [exec, execRdtemp_eq, whenRegIn_mem (List.contains_iff_mem.1 hwf), whenBound_bound hb]
    exact stopsWithout_whenAnswered fun _ => stopsWithout_whenAnswered fun _ => stopsWithout_lastAnswer
  | wrtemp reg c =>
    obtain ⟨raw, he⟩ := (encodable_iff_exists_tempEncode_ok s.params.encRounding).1 (henc c rfl)
    rw [exec, execWrtemp_eq, whenRegIn_mem (List.contains_iff_mem.1 hwf), whenBound_bound hb, encodeTemp_ok he]
    exact stopsWithout_lastAnswer
  | setres v =>
    rw [exec, execSetres_eq, guard_passed_bound (mt (resGuarded_iff v).1 hg) hb]
    exact stopsWithout_lastAnswer
  | bind | decode | encode | getstatus => exact hu.elim

end Sys2Proof.Machine

namespace Sys2Proof.Certificates

open Sys2Proof.Machine

/-- Settles O21: a command that stops has passed the checks (`reachesBus_of_exec_fault`) and misses an answer
(`exec_fault_cases`); one that passes them stops where an answer is missing (`exec_stopsWithout`). -/
theorem commandStopsExactlyOnASilentBus : Obligations.CommandStopsExactlyOnASilentBus := by
  refine fun i s => ⟨⟨?_, ?_⟩, fun r h => (exec_fault_cases h).1, exec_ne_refused i s⟩
  · rintro ⟨r, h⟩
    exact ⟨reachesBus_of_exec_fault h, (exec_fault_cases h).2⟩
  · rintro ⟨hr, k, hk, ha⟩
    exact ⟨_, exec_stopsWithout hr k k.zero_le hk ha⟩

end Sys2Proof.Certificates
end
